-- ==== Sys2Proof/Word.lean ====
section
/-! DEFINITION. The words of the CORE: bytes and 9-bit addresses (00_scope.md R8, R9). -/

namespace Sys2Proof

/-- A register, a memory cell, an instruction byte: 8 bits, unsigned (R8, R9, R30). -/
abbrev Byte := BitVec 8

/-- An address inside the CORE: 9 bits, so that the value 256 is representable (R8, R34, R77). -/
abbrev Addr := BitVec 9

end Sys2Proof
end

