-- ==== Sys2Proof/Syntax.lean ====
section
/-! DEFINITION. The thirteen instructions (00_scope.md R2, 30_encoding.md R101, R103). -/

namespace Sys2Proof

/-- The thirteen mnemonics of R2, the decoder's one-hot `op_sel` (R104). -/
inductive Mnemonic where
  | hlt | ret | push | pop | prn | call | jmp | jeq | jne | ldi | add | mul | cmp
deriving DecidableEq, Repr

/-- One instruction with its operand bytes. A register operand is the WHOLE operand byte, 0 to 255: R102 masks nothing,
and a byte 8 to 255 is an encoding that raises RegisterFault when it executes (R232). -/
inductive Instr where
  /-- HLT, format F0 (R220). -/
  | hlt
  /-- RET, format F0 (R191). -/
  | ret
  /-- PUSH r, format F1R (R183). -/
  | push (r : Byte)
  /-- POP r, format F1R (R184). -/
  | pop (r : Byte)
  /-- PRN r, format F1R (R161). -/
  | prn (r : Byte)
  /-- CALL r, format F1R (R190). -/
  | call (r : Byte)
  /-- JMP r, format F1R (R210). -/
  | jmp (r : Byte)
  /-- JEQ r, format F1R (R211). -/
  | jeq (r : Byte)
  /-- JNE r, format F1R (R212). -/
  | jne (r : Byte)
  /-- LDI r, imm, format F2RI (R160). -/
  | ldi (r : Byte) (imm : Byte)
  /-- ADD rA, rB, format F2RR (R172). -/
  | add (rA : Byte) (rB : Byte)
  /-- MUL rA, rB, format F2RR (R173). -/
  | mul (rA : Byte) (rB : Byte)
  /-- CMP rA, rB, format F2RR (R200). -/
  | cmp (rA : Byte) (rB : Byte)
deriving DecidableEq, Repr

/-- The mnemonic of an instruction. -/
def Instr.mnemonic : Instr → Mnemonic
  | .hlt => .hlt
  | .ret => .ret
  | .push _ => .push
  | .pop _ => .pop
  | .prn _ => .prn
  | .call _ => .call
  | .jmp _ => .jmp
  | .jeq _ => .jeq
  | .jne _ => .jne
  | .ldi _ _ => .ldi
  | .add _ _ => .add
  | .mul _ _ => .mul
  | .cmp _ _ => .cmp

/-- The operand bytes, in address order (R100, R101). -/
def Instr.operands : Instr → List Byte
  | .hlt => []
  | .ret => []
  | .push r => [r]
  | .pop r => [r]
  | .prn r => [r]
  | .call r => [r]
  | .jmp r => [r]
  | .jeq r => [r]
  | .jne r => [r]
  | .ldi r imm => [r, imm]
  | .add rA rB => [rA, rB]
  | .mul rA rB => [rA, rB]
  | .cmp rA rB => [rA, rB]

/-- The operand bytes that are register indices, in operand order (R101). LDI's second operand is an immediate. -/
def Instr.regOperands : Instr → List Byte
  | .hlt => []
  | .ret => []
  | .push r => [r]
  | .pop r => [r]
  | .prn r => [r]
  | .call r => [r]
  | .jmp r => [r]
  | .jeq r => [r]
  | .jne r => [r]
  | .ldi r _ => [r]
  | .add rA rB => [rA, rB]
  | .mul rA rB => [rA, rB]
  | .cmp rA rB => [rA, rB]

/-- The length in bytes: 1 + operand count, so 1, 2 or 3 (R100). -/
def Instr.length (i : Instr) : Nat := 1 + i.operands.length

end Sys2Proof
end

