-- ==== Sys2Proof/WellFormed.lean ====
section
/-! DEFINITION. Which instructions name only registers that exist (30_encoding.md R102, R110). -/

namespace Sys2Proof

/-- A register operand byte names one of R0 to R7 (R102). -/
def regByteOk (r : Byte) : Bool := r.toNat < 8

/-- The instruction names existing registers only: the instructions the assembler can write (R110). The others have
encodings too; they decode, and raise RegisterFault when they execute (R102, R232; log 13). -/
def WellFormed : Instr → Bool
  | .hlt => true
  | .ret => true
  | .push r => regByteOk r
  | .pop r => regByteOk r
  | .prn r => regByteOk r
  | .call r => regByteOk r
  | .jmp r => regByteOk r
  | .jeq r => regByteOk r
  | .jne r => regByteOk r
  | .ldi r _ => regByteOk r
  | .add rA rB => regByteOk rA && regByteOk rB
  | .mul rA rB => regByteOk rA && regByteOk rB
  | .cmp rA rB => regByteOk rA && regByteOk rB

end Sys2Proof
end

