-- ==== Sys2Proof/Decode.lean ====
section
/-! DEFINITION. The decoder (30_encoding.md R100 to R107): the opcode map as one table, the decoder's outputs, decoding
of bytes with every rejection named, and the encoder from the same table. -/

namespace Sys2Proof

/-- The ALU operation code of ADD (R104, R171). -/
def aluOpAdd : BitVec 4 := 0x0

/-- The ALU operation code of MUL (R104, R171). -/
def aluOpMul : BitVec 4 := 0x2

/-- One row of the decode table: the decoder outputs for an opcode that has an entry (R104). `aluOp` is `alu_op[3:0]`
where `alu_en` = 1 and none where `alu_en` = 0. -/
structure DecodeEntry where
  /-- The opcode byte. -/
  opcode : Byte
  /-- `op_sel`. -/
  mnemonic : Mnemonic
  /-- `n_ops[1:0]`: the operand count. -/
  nOps : Nat
  /-- `sets_pc`. -/
  setsPc : Bool
  /-- `alu_en` and `alu_op[3:0]`. -/
  aluOp : Option (BitVec 4)
  /-- `halt`. -/
  halt : Bool
deriving DecidableEq, Repr

/-- The opcode map of R103, one row per mnemonic. LDI, PRN and HLT have the source's bytes; the other ten bytes are the
spec's general-knowledge values (decision D2). PRESUMED (log 9): replace the bytes here and nowhere else. -/
def entryOf : Mnemonic → DecodeEntry
  | .hlt => ⟨0x01, .hlt, 0, false, none, true⟩
  | .ret => ⟨0x11, .ret, 0, true, none, false⟩
  | .push => ⟨0x45, .push, 1, false, none, false⟩
  | .pop => ⟨0x46, .pop, 1, false, none, false⟩
  | .prn => ⟨0x47, .prn, 1, false, none, false⟩
  | .call => ⟨0x50, .call, 1, true, none, false⟩
  | .jmp => ⟨0x54, .jmp, 1, true, none, false⟩
  | .jeq => ⟨0x55, .jeq, 1, true, none, false⟩
  | .jne => ⟨0x56, .jne, 1, true, none, false⟩
  | .ldi => ⟨0x82, .ldi, 2, false, none, false⟩
  | .add => ⟨0xA0, .add, 2, false, some aluOpAdd, false⟩
  | .mul => ⟨0xA2, .mul, 2, false, some aluOpMul, false⟩
  | .cmp => ⟨0xA7, .cmp, 2, false, none, false⟩

/-- The decode table: thirteen rows, in the order of R103. -/
def decodeTable : List DecodeEntry :=
  [entryOf .hlt, entryOf .ret, entryOf .push, entryOf .pop, entryOf .prn, entryOf .call, entryOf .jmp,
   entryOf .jeq, entryOf .jne, entryOf .ldi, entryOf .add, entryOf .mul, entryOf .cmp]

/-- Table lookup by the whole opcode byte; none is `valid` = 0 (R104, R105, R106). -/
def lookupOpcode (op : Byte) : Option DecodeEntry := decodeTable.find? (fun e => e.opcode == op)

/-- The instruction a mnemonic and two latched operand bytes stand for; a byte the format lacks is ignored (R101). -/
def buildInstr (m : Mnemonic) (o1 o2 : Byte) : Instr :=
  match m with
  | .hlt => .hlt
  | .ret => .ret
  | .push => .push o1
  | .pop => .pop o1
  | .prn => .prn o1
  | .call => .call o1
  | .jmp => .jmp o1
  | .jeq => .jeq o1
  | .jne => .jne o1
  | .ldi => .ldi o1 o2
  | .add => .add o1 o2
  | .mul => .mul o1 o2
  | .cmp => .cmp o1 o2

/-- Why bytes do not decode, by name. -/
inductive DecodeError where
  /-- There is no opcode byte to read (R132: the opcode fetch fails). -/
  | noOpcode
  /-- The opcode byte has no decode-table entry (R106, R133). -/
  | unknownOpcode (op : Byte)
  /-- Operand byte number `k` (1 or 2) of opcode `op` is not there to read (R134). -/
  | missingOperand (op : Byte) (k : Nat)
deriving DecidableEq, Repr

/-- The fetch and decode steps of R131 over any source of bytes, `read k` being the byte `k` places after the opcode's:
opcode, lookup before any operand, then operand 1, then operand 2, each only if the table declares it (R132 to R134). -/
def decodeWith (read : Nat → Option Byte) : Except DecodeError Instr :=
  match read 0 with
  | none => .error .noOpcode
  | some op =>
    match lookupOpcode op with
    | none => .error (.unknownOpcode op)
    | some e =>
      if e.nOps = 0 then .ok (buildInstr e.mnemonic 0 0)
      else
        match read 1 with
        | none => .error (.missingOperand op 1)
        | some o1 =>
          if e.nOps = 1 then .ok (buildInstr e.mnemonic o1 0)
          else
            match read 2 with
            | none => .error (.missingOperand op 2)
            | some o2 => .ok (buildInstr e.mnemonic o1 o2)

/-- Decode the instruction at the head of a list of bytes; answer it with the bytes after it, or the named rejection. -/
def decode (bytes : List Byte) : Except DecodeError (Instr × List Byte) :=
  match decodeWith (fun k => bytes[k]?) with
  | .error e => .error e
  | .ok i => .ok (i, bytes.drop i.length)

/-- The bytes of an instruction, in ascending address order: opcode, operand 1, operand 2 (R100, R101, R103). -/
def encode (i : Instr) : List Byte := (entryOf i.mnemonic).opcode :: i.operands

/-- Byte `k` of a number, byte 0 the least significant. -/
def byteOf (w k : Nat) : Byte := BitVec.ofNat 8 (w / 256 ^ k)

/-- The three bytes of an opcode-table word, first byte at the lowest address: bit 0 is the least significant bit of the
first byte, and every bit from `nbits` up is 0. -/
def tableBytes (nbits w : Nat) : List Byte :=
  [byteOf (w % 2 ^ nbits) 0, byteOf (w % 2 ^ nbits) 1, byteOf (w % 2 ^ nbits) 2]

/-- The instruction the decoder reads from a word numbered as spec/opcode_table.json numbers its bits. -/
def decodeTableWord (nbits w : Nat) : Option Instr :=
  match decode (tableBytes nbits w) with
  | .error _ => none
  | .ok (i, _) => some i

end Sys2Proof
end

