-- ==== Sys2Proof/Config.lean ====
section
/-! DEFINITION. What an implementation fixes: the stack constants (10_state.md R48, 00_scope.md R8) and what a memory
cell no image byte reaches reads as (20_memory.md R87). -/

namespace Sys2Proof

/-- The configuration constants of the CORE (R48): fixed for the life of the hardware, written by no instruction. -/
structure Config where
  /-- `SP_INIT`: the reset value of R7 and the upper bound of POP and RET. -/
  spInit : Byte
  /-- `STACK_BASE`: the lowest reserved stack address, the lower bound of PUSH and CALL. -/
  stackBase : Byte
deriving DecidableEq, Repr

/-- The constraint of R8 and R48: 0 <= STACK_BASE <= SP_INIT <= 0xFF. -/
def Config.valid (c : Config) : Bool := c.stackBase.toNat ≤ c.spInit.toNat

/-- The reference configuration of R48. The values are the spec's own (decisions D3, D4; log 5). -/
def Config.reference : Config := { spInit := 0xF4, stackBase := 0xE4 }

/-- What a cell that nothing has written reads as: the zero fill of R87. DESIGN CHOICE (log 4), where the host has not
written the cell. -/
def Config.memFill : Byte := 0x00

end Sys2Proof
end

