-- ==== Sys2Proof/Machine/State.lean ====
section
/-! DEFINITION. The state of the machine (10_state.md R30 to R48), its reset value, and the reasons a step may stop.
The conventions behind it: log 2 to 6, 8, 11, 14. -/

namespace Sys2Proof.Machine

/-- A fault of the MODEL. There is none: every fault of the CORE has an entry the spec describes (R237), so it is a next
state with `RUN` = FAULTED, and no rule of the spec leaves a step without an effect. Nobody raises this type; that a step
cannot stop with a fault is read off its emptiness (log 11). -/
inductive Fault where
deriving DecidableEq, Repr

/-- Why the model gives no meaning. -/
inductive Refusal where
  /-- Raised by exec's arm of an instruction that has no meaning in this model; safe. No arm raises it. -/
  | notModelled (mnemonic : String)
deriving DecidableEq, Repr

/-- `RUN` (R40, R130). Its 2-bit codes are `RunState.code`. -/
inductive RunState where
  /-- Reset is asserted, or not yet released; the host load port owns memory. -/
  | reset
  /-- Instruction cycles execute. -/
  | running
  /-- HLT executed. -/
  | halted
  /-- A fault ended the run. -/
  | faulted
deriving DecidableEq, Repr

/-- `FL` (R36). Its one-hot codes are `Flag.code`. -/
inductive Flag where
  /-- No comparison since reset. -/
  | none
  /-- The last CMP found its operands equal. -/
  | eq
  /-- The last CMP found its first operand greater. -/
  | gt
  /-- The last CMP found its first operand less. -/
  | lt
deriving DecidableEq, Repr

/-- `FCAUSE` (R41, R230). Its 3-bit codes are `FaultCause.code`; codes 6 and 7 are never written, so they have no
constructor (log 14). -/
inductive FaultCause where
  | none
  | memory
  | register
  | stack
  | unsupportedOperation
  | unknownInstruction
deriving DecidableEq, Repr

/-- What `raise F(info)` carries (R11, R237). -/
structure Raised where
  cause : FaultCause
  info : Addr
deriving DecidableEq, Repr

/-- The levels the host drives on the input pins (R80, R260), sampled by every step (log 6). -/
structure HostPins where
  /-- `rst`, active high. -/
  rst : Bool
  /-- `load_we`. -/
  loadWe : Bool
  /-- `load_addr[7:0]`. -/
  loadAddr : Byte
  /-- `load_data[7:0]`. -/
  loadData : Byte
deriving DecidableEq, Repr

/-- All pins low. -/
def HostPins.idle : HostPins := { rst := false, loadWe := false, loadAddr := 0, loadData := 0 }

/-- `MEM[0..255]` (R45) as the list of its cells that differ from the fill of R87, addresses strictly rising. -/
abbrev Memory := List Host.Cell

/-- The state (10_state.md's summary table, with the ports of R80, R247 and R260). -/
structure State where
  /-- `x[0]` to `x[7]`; `x[7]` is the stack pointer (R30, R33). -/
  regs : Vector Byte 8
  /-- The program counter (R34). -/
  pc : Addr
  /-- The flag register (R36). -/
  fl : Flag
  /-- The run state (R40). -/
  run : RunState
  /-- `FCAUSE` (R41). -/
  fcause : FaultCause
  /-- `FPC` (R42). -/
  fpc : Addr
  /-- `FOP` (R43). -/
  fop : Byte
  /-- `FINFO` (R44). -/
  finfo : Addr
  /-- Memory (R45). -/
  mem : Memory
  /-- The output event sequence of the current run, oldest first (R46). -/
  output : List Byte
  /-- The output port after the last step: `some v` is `out_valid` = 1 with `out_data` = v (R247). -/
  outPort : Option Byte
  /-- The input pins. -/
  pins : HostPins
  /-- `SP_INIT` and `STACK_BASE` (R48). -/
  cfg : Config
deriving DecidableEq, Repr

/-- The machine right after reset: the values of R260 in the reference configuration, reset released (R262), so `RUN` is
RUNNING (R40), with the empty image in memory (R87). Log 2 to 6. -/
def State.reset : State where
  regs := #v[0, 0, 0, 0, 0, 0, 0, Config.reference.spInit]
  pc := 0
  fl := .none
  run := .running
  fcause := .none
  fpc := 0
  fop := 0
  finfo := 0
  mem := []
  output := []
  outPort := none
  pins := HostPins.idle
  cfg := Config.reference

end Sys2Proof.Machine
end

