-- ==== Sys2Proof/Machine/Ops.lean ====
section
/-! DEFINITION. The shared operations: memory behind the arbiter, registers, output, taking a fault, the frame of an
instruction cycle, reset, release and the host load port. There is no return from a fault (60_exceptions.md R241): the
only way out of FAULTED is `State.applyReset`. -/

namespace Sys2Proof.Machine

/-! ### Memory cells -/

/-- What a memory reads at an address: the listed byte, else the fill of R87 (log 4). -/
def Memory.read (m : Memory) (a : Nat) : Byte :=
  match m with
  | [] => Config.memFill
  | (b, w) :: rest => if a = b then w else Memory.read rest a

/-- Take the cell at `a` out of the list. -/
def Memory.erase (m : Memory) (a : Nat) : Memory :=
  match m with
  | [] => []
  | (b, w) :: rest => if a = b then Memory.erase rest a else (b, w) :: Memory.erase rest a

/-- Put a cell before the first one with a higher address. -/
def Memory.insert (m : Memory) (a : Nat) (v : Byte) : Memory :=
  match m with
  | [] => [(a, v)]
  | (b, w) :: rest => if a < b then (a, v) :: (b, w) :: rest else (b, w) :: Memory.insert rest a v

/-- `MEM[a] <- v`; no other cell changes (R73). A byte equal to the fill takes the cell out of the list, so that equal
memories are equal lists. There is no cell at 256 or above. -/
def Memory.write (m : Memory) (a : Nat) (v : Byte) : Memory :=
  if 256 ≤ a then m
  else if v = Config.memFill then m.erase a
  else (m.erase a).insert a v

/-- The canonical form from address `lo` up: addresses strictly rising, below 256 (R45), no cell equal to the fill. -/
def Memory.wfFrom (lo : Nat) (m : Memory) : Bool :=
  match m with
  | [] => true
  | (a, v) :: rest => decide (lo ≤ a) && decide (a < 256) && (v != Config.memFill) && Memory.wfFrom (a + 1) rest

/-- The canonical form of a memory. -/
def Memory.wf (m : Memory) : Bool := m.wfFrom 0

/-- Bytes written at ascending addresses from `a`; what would fall at 256 or above is dropped (log 16). -/
def Memory.writeBytes (m : Memory) (a : Nat) (bytes : List Byte) : Memory :=
  match bytes with
  | [] => m
  | v :: rest => Memory.writeBytes (m.write a v) (a + 1) rest

/-! ### The arbiter's two primitives -/

/-- A value of 8 bits in the 9 bits of an address or info field. -/
def zext9 (v : Byte) : Addr := v.setWidth 9

/-- `raise MemoryFault(a)`: the info field is 9 bits (R44). -/
def memoryFault (a : Nat) : Raised := { cause := .memory, info := BitVec.ofNat 9 a }

/-- `MemRead(a, 1)` through the arbiter (R72, R77). -/
def memRead (s : State) (a : Nat) : Except Raised Byte :=
  if 256 ≤ a then .error (memoryFault a) else .ok (s.mem.read a)

/-- `MemWrite(a, 1, v)` through the arbiter (R73, R77). -/
def memWrite (s : State) (a : Nat) (v : Byte) : Except Raised State :=
  if 256 ≤ a then .error (memoryFault a) else .ok { s with mem := s.mem.write a v }

/-- The byte `k` places after the opcode's address, where there is one: what the fetch unit reads (R132, R134). -/
def fetchByte (s : State) (k : Nat) : Option Byte :=
  if 256 ≤ s.pc.toNat + k then none else some (s.mem.read (s.pc.toNat + k))

/-! ### Registers and output -/

/-- `x[i]` (R11, R31). -/
def State.reg (s : State) (i : Fin 8) : Byte := s.regs[i]

/-- `x[i] <- v` (R11, R32). -/
def State.setReg (s : State) (i : Fin 8) (v : Byte) : State := { s with regs := s.regs.set i v }

/-- `Output(v)`: one event at the end of the sequence, offered on the port (R46, R247). -/
def State.emit (s : State) (v : Byte) : State := { s with output := s.output ++ [v], outPort := some v }

/-- `out_valid` <- 0 (R247, R260). -/
def State.clearPort (s : State) : State := { s with outPort := none }

/-! ### Taking a fault -/

/-- Fault entry (R237): `op` is the opcode byte of the cycle, 0x00 where its fetch failed. `pc` keeps its value; the
state given is the one BEFORE the cycle, so every write of the cycle is discarded. -/
def faultEntry (op : Byte) (r : Raised) (s : State) : State :=
  { s with fcause := r.cause, fpc := s.pc, fop := op, finfo := r.info, run := .faulted }

/-- The fault a failed fetch or decode raises (R132 to R134), entered. -/
def fetchFault (e : DecodeError) (s : State) : State :=
  match e with
  | .noOpcode => faultEntry 0x00 (memoryFault s.pc.toNat) s
  | .unknownOpcode op => faultEntry op { cause := .unknownInstruction, info := zext9 op } s
  | .missingOperand op k => faultEntry op (memoryFault (s.pc.toNat + k)) s

/-! ### The execute and advance steps of an instruction cycle -/

/-- `pc <- p + 1 + n` (R136), `n` the operand count of the decode table. -/
def State.advance (s : State) (n : Nat) : State := { s with pc := s.pc + BitVec.ofNat 9 (1 + n) }

/-- `pc <- t` for a target byte: it clears `pc[8]` (R35). -/
def State.jump (s : State) (t : Byte) : State := { s with pc := zext9 t }

/-- What an instruction's rule answers (R135): a raise, or the state with its writes and whether it wrote `pc`. -/
abbrev RuleResult := Except Raised (State × Bool)

/-- The end of a cycle (R131): a raise discards the writes and enters the fault; otherwise `pc` is written once, by the
rule or by the advance (R137), and every write commits. -/
def finish (m : Mnemonic) (s : State) (result : RuleResult) : Host.Outcome State Fault Refusal :=
  match result with
  | .error r => .next (faultEntry (entryOf m).opcode r s)
  | .ok (t, true) => .next t
  | .ok (t, false) => .next (t.advance (entryOf m).nOps)

/-! ### Reset, release, load port -/

/-- The assignments of R260 in a cycle with `rst` = 1: memory, the pins and the configuration stay. -/
def State.applyReset (s : State) : State :=
  { s with
    regs := #v[0, 0, 0, 0, 0, 0, 0, s.cfg.spInit]
    pc := 0
    fl := .none
    run := .reset
    fcause := .none
    fpc := 0
    fop := 0
    finfo := 0
    output := []
    outPort := none }

/-- Release (R262, R130): RUNNING with `pc` = 0. -/
def State.release (s : State) : State := { s with run := .running, pc := 0, outPort := none }

/-- The host load port (R80): it writes only while `RUN` = RESET, in the release cycle too (log 7). -/
def State.hostLoad (s : State) : State :=
  if s.run = .reset ∧ s.pins.loadWe = true then
    { s with mem := s.mem.write s.pins.loadAddr.toNat s.pins.loadData }
  else s

/-- The host changes the pins between two steps (log 6). -/
def State.drive (p : HostPins) (s : State) : State := { s with pins := p }

end Sys2Proof.Machine
end

