-- ==== Sys2Proof/Machine/Operands.lean ====
section
/-! DEFINITION. Operand forms (30_encoding.md R101, R102): a register operand is a whole byte checked against 8, an
immediate is a whole byte used as is (10_state.md R31, R32 for the register file's own check); the stack's two bounds
(43_stack.md R181, R182). -/

namespace Sys2Proof.Machine

/-- `CheckReg(i)` (R13): the index a register operand byte names, or RegisterFault with the byte (R31, R32, R232). -/
def checkReg (r : Byte) : Except Raised (Fin 8) :=
  if h : r.toNat < 8 then .ok ⟨r.toNat, h⟩ else .error { cause := .register, info := zext9 r }

/-- The stack-pointer register (R33). -/
abbrev spIndex : Fin 8 := 7

/-- `raise StackFault(sp)` with R7 before the instruction (R44, R233). -/
def stackFault (sp : Byte) : Raised := { cause := .stack, info := zext9 sp }

/-- The push bound (R181), used by PUSH and CALL: R7, or StackFault when sp <= STACK_BASE. -/
def pushBound (s : State) : Except Raised Byte :=
  if (s.reg spIndex).toNat ≤ s.cfg.stackBase.toNat then .error (stackFault (s.reg spIndex)) else .ok (s.reg spIndex)

/-- The pop bound (R182), used by POP and RET: R7, or StackFault when sp >= SP_INIT. -/
def popBound (s : State) : Except Raised Byte :=
  if s.cfg.spInit.toNat ≤ (s.reg spIndex).toNat then .error (stackFault (s.reg spIndex)) else .ok (s.reg spIndex)

end Sys2Proof.Machine
end

