-- ==== Sys2Proof/Machine/Alu.lean ====
section
/-! DEFINITION. The ALU and its instructions ADD and MUL (42_alu.md R170 to R174). -/

namespace Sys2Proof.Machine

/-- The ALU's result, unsigned modulo 256 (R174), or UnsupportedOperation(alu_op) (R171, R234). No opcode sends the ALU
another code, so no program reaches the guard. -/
def aluResult (op : BitVec 4) (a b : Byte) : Except Raised Byte :=
  if op = aluOpAdd then .ok (a + b)
  else if op = aluOpMul then .ok (a * b)
  else .error { cause := .unsupportedOperation, info := op.setWidth 9 }

/-- `apply(operation, destIndex, srcIndex)` (R170): both indices are checked, in operand order, then the operation, then
the result is written to the destination. The operation's place after the indices is log 18. -/
def aluApply (op : BitVec 4) (dest src : Byte) (s : State) : Except Raised State := do
  let i ← checkReg dest
  let j ← checkReg src
  let v ← aluResult op (s.reg i) (s.reg j)
  .ok (s.setReg i v)

/-- The rule of ADD (R172). -/
def ruleAdd (rA rB : Byte) (s : State) : RuleResult := do
  let t ← aluApply aluOpAdd rA rB s
  .ok (t, false)

/-- ADD: add registers (R172). -/
def execAdd (rA rB : Byte) (s : State) : Host.Outcome State Fault Refusal :=
  finish .add s (ruleAdd rA rB s)

/-- The rule of MUL (R173). -/
def ruleMul (rA rB : Byte) (s : State) : RuleResult := do
  let t ← aluApply aluOpMul rA rB s
  .ok (t, false)

/-- MUL: multiply registers, low 8 bits of the product (R173). -/
def execMul (rA rB : Byte) (s : State) : Host.Outcome State Fault Refusal :=
  finish .mul s (ruleMul rA rB s)

end Sys2Proof.Machine
end

