-- ==== Sys2Proof/Machine/CallRet.lean ====
section
/-! DEFINITION. CALL and RET (44_call_ret.md R190 to R192). -/

namespace Sys2Proof.Machine

/-- The return address `p + 2` as a byte, or MemoryFault when it does not fit a cell (R190, R231). -/
def returnAddress (s : State) : Except Raised Byte :=
  if 256 ≤ s.pc.toNat + 2 then .error (memoryFault (s.pc.toNat + 2)) else .ok (BitVec.ofNat 8 (s.pc.toNat + 2))

/-- The rule of CALL (R190): register, stack, return address are checked in that order; the target is read after the
push. -/
def ruleCall (r : Byte) (s : State) : RuleResult := do
  let i ← checkReg r
  let sp ← pushBound s
  let ret ← returnAddress s
  let s1 := s.setReg spIndex (sp - 1)
  let s2 ← memWrite s1 (sp - 1).toNat ret
  .ok (s2.jump (s2.reg i), true)

/-- CALL: call subroutine through a register (R190). -/
def execCall (r : Byte) (s : State) : Host.Outcome State Fault Refusal :=
  finish .call s (ruleCall r s)

/-- The rule of RET (R191). -/
def ruleRet (s : State) : RuleResult := do
  let sp ← popBound s
  let t ← memRead s sp.toNat
  .ok ((s.setReg spIndex (sp + 1)).jump t, true)

/-- RET: return from subroutine (R191). -/
def execRet (s : State) : Host.Outcome State Fault Refusal :=
  finish .ret s (ruleRet s)

end Sys2Proof.Machine
end

