-- ==== Sys2Proof/Machine/Flags.lean ====
section
/-! DEFINITION. The flag register and the status outputs (10_state.md R36 to R41, 45_compare.md R200,
60_exceptions.md R230, R250). -/

namespace Sys2Proof.Machine

/-- The comparator of CMP (R200): unsigned. -/
def compareFlag (a b : Byte) : Flag :=
  if a = b then .eq else if b.toNat < a.toNat then .gt else .lt

/-- JEQ is taken iff `FL` = EQ (R38, R211). -/
def Flag.jeqTaken (f : Flag) : Bool := f = .eq

/-- JNE is taken iff `FL` != EQ, NONE included (R38, R212). -/
def Flag.jneTaken (f : Flag) : Bool := f ≠ .eq

/-- `FL[2:0]` = {L, G, E}, one-hot (R36). -/
def Flag.code : Flag → BitVec 3
  | .none => 0b000
  | .eq => 0b001
  | .gt => 0b010
  | .lt => 0b100

/-- The codes of `RUN` (R40). -/
def RunState.code : RunState → BitVec 2
  | .reset => 0b00
  | .running => 0b01
  | .halted => 0b10
  | .faulted => 0b11

/-- The codes of `FCAUSE` (R41, R230). -/
def FaultCause.code : FaultCause → BitVec 3
  | .none => 0
  | .memory => 1
  | .register => 2
  | .stack => 3
  | .unsupportedOperation => 4
  | .unknownInstruction => 5

/-- The status outputs to the host (R250). -/
structure StatusOutputs where
  runState : BitVec 2
  halted : Bool
  faulted : Bool
  faultCause : BitVec 3
  faultPc : Addr
  faultOp : Byte
  faultInfo : Addr
deriving DecidableEq, Repr

/-- The wires of R250, computed from the state. -/
def statusOutputs (s : State) : StatusOutputs where
  runState := s.run.code
  halted := s.run = .halted
  faulted := s.run = .faulted
  faultCause := s.fcause.code
  faultPc := s.fpc
  faultOp := s.fop
  faultInfo := s.finfo

end Sys2Proof.Machine
end

