-- ==== Sys2Proof/Machine/Compare.lean ====
section
/-! DEFINITION. CMP (45_compare.md R200). -/

namespace Sys2Proof.Machine

/-- The rule of CMP (R200): the values of the registers are compared, unsigned, and all of `FL` is overwritten. -/
def ruleCmp (rA rB : Byte) (s : State) : RuleResult := do
  let i ← checkReg rA
  let j ← checkReg rB
  .ok ({ s with fl := compareFlag (s.reg i) (s.reg j) }, false)

/-- CMP: compare registers (R200). -/
def execCmp (rA rB : Byte) (s : State) : Host.Outcome State Fault Refusal :=
  finish .cmp s (ruleCmp rA rB s)

end Sys2Proof.Machine
end

