-- ==== Sys2Proof/Machine/Halt.lean ====
section
/-! DEFINITION. HLT (47_halt.md R220). -/

namespace Sys2Proof.Machine

/-- HLT: halt. `RUN` becomes HALTED when the cycle commits, and `pc` advances by 1 (R220, R138). -/
def execHlt (s : State) : Host.Outcome State Fault Refusal :=
  finish .hlt s (.ok ({ s with run := .halted }, false))

end Sys2Proof.Machine
end

