-- ==== Sys2Proof/Machine/Jump.lean ====
section
/-! DEFINITION. JMP, JEQ and JNE (46_jump.md R210 to R213). -/

namespace Sys2Proof.Machine

/-- The rule shared by the jumps: the register operand is checked, taken or not (R211, R212), then `pc` is written iff
the jump is taken. -/
def ruleJumpIf (taken : Bool) (r : Byte) (s : State) : RuleResult := do
  let i ← checkReg r
  if taken then .ok (s.jump (s.reg i), true) else .ok (s, false)

/-- JMP: jump through a register (R210). -/
def execJmp (r : Byte) (s : State) : Host.Outcome State Fault Refusal :=
  finish .jmp s (ruleJumpIf true r s)

/-- JEQ: jump if equal (R211). -/
def execJeq (r : Byte) (s : State) : Host.Outcome State Fault Refusal :=
  finish .jeq s (ruleJumpIf s.fl.jeqTaken r s)

/-- JNE: jump if not equal (R212). -/
def execJne (r : Byte) (s : State) : Host.Outcome State Fault Refusal :=
  finish .jne s (ruleJumpIf s.fl.jneTaken r s)

end Sys2Proof.Machine
end

