-- ==== Sys2Proof/Machine/LoadPrint.lean ====
section
/-! DEFINITION. LDI and PRN (41_ldi_prn.md R160, R161). -/

namespace Sys2Proof.Machine

/-- The rule of LDI (R160). -/
def ruleLdi (r imm : Byte) (s : State) : RuleResult := do
  let i ← checkReg r
  .ok (s.setReg i imm, false)

/-- LDI: load immediate (R160). -/
def execLdi (r imm : Byte) (s : State) : Host.Outcome State Fault Refusal :=
  finish .ldi s (ruleLdi r imm s)

/-- The rule of PRN (R161). -/
def rulePrn (r : Byte) (s : State) : RuleResult := do
  let i ← checkReg r
  .ok (s.emit (s.reg i), false)

/-- PRN: print register (R161). -/
def execPrn (r : Byte) (s : State) : Host.Outcome State Fault Refusal :=
  finish .prn s (rulePrn r s)

end Sys2Proof.Machine
end

