-- ==== Sys2Proof/Machine/Stack.lean ====
section
/-! DEFINITION. PUSH and POP (43_stack.md R180 to R185). -/

namespace Sys2Proof.Machine

/-- The rule of PUSH (R183): `x[o1]` is read after the decrement. -/
def rulePush (r : Byte) (s : State) : RuleResult := do
  let i ← checkReg r
  let sp ← pushBound s
  let s1 := s.setReg spIndex (sp - 1)
  let s2 ← memWrite s1 (sp - 1).toNat (s1.reg i)
  .ok (s2, false)

/-- PUSH: push register (R183). -/
def execPush (r : Byte) (s : State) : Host.Outcome State Fault Refusal :=
  finish .push s (rulePush r s)

/-- The rule of POP (R184): R7 is read again after `x[o1]` is written. -/
def rulePop (r : Byte) (s : State) : RuleResult := do
  let i ← checkReg r
  let sp ← popBound s
  let v ← memRead s sp.toNat
  let s1 := s.setReg i v
  .ok (s1.setReg spIndex (s1.reg spIndex + 1), false)

/-- POP: pop into register (R184). -/
def execPop (r : Byte) (s : State) : Host.Outcome State Fault Refusal :=
  finish .pop s (rulePop r s)

end Sys2Proof.Machine
end

