-- ==== Sys2Proof/Machine/Dispatch.lean ====
section
/-! DEFINITION. The execute step (40_control_fsm.md R135): one arm per instruction. -/

namespace Sys2Proof.Machine

/-- The meaning of each instruction at a state whose `pc` is the instruction's address (R135). -/
def exec (i : Instr) (s : State) : Host.Outcome State Fault Refusal :=
  match i with
  | .hlt => Sys2Proof.Machine.execHlt s
  | .ret => Sys2Proof.Machine.execRet s
  | .push r => Sys2Proof.Machine.execPush r s
  | .pop r => Sys2Proof.Machine.execPop r s
  | .prn r => Sys2Proof.Machine.execPrn r s
  | .call r => Sys2Proof.Machine.execCall r s
  | .jmp r => Sys2Proof.Machine.execJmp r s
  | .jeq r => Sys2Proof.Machine.execJeq r s
  | .jne r => Sys2Proof.Machine.execJne r s
  | .ldi r imm => Sys2Proof.Machine.execLdi r imm s
  | .add rA rB => Sys2Proof.Machine.execAdd rA rB s
  | .mul rA rB => Sys2Proof.Machine.execMul rA rB s
  | .cmp rA rB => Sys2Proof.Machine.execCmp rA rB s

end Sys2Proof.Machine
end

