-- ==== Sys2Proof/Machine/Step.lean ====
section
/-! DEFINITION. One step of the machine (40_control_fsm.md R130, R131; log 1, log 6). -/

namespace Sys2Proof.Machine

/-- One instruction cycle (R131): fetch and decode at `pc`, then the instruction's rule; a failed fetch or decode enters
its fault. The output strobe of the step before is over (R247). -/
def runCycle (s : State) : Host.Outcome State Fault Refusal :=
  match decodeWith (fetchByte s) with
  | .ok i => exec i s.clearPort
  | .error e => .next (fetchFault e s.clearPort)

/-- One step (R130): with `rst` = 1 the reset of R260, whatever the run state, a cycle in flight committing nothing
(R141); with `rst` = 0 the release from RESET (R262), an instruction cycle in RUNNING, and holding in HALTED and FAULTED
(R140), where only the output strobe of the step before ends (R247). The load port acts in RESET alone (R80). -/
def step (s : State) : Host.Outcome State Fault Refusal :=
  if s.pins.rst = true then .next s.hostLoad.applyReset
  else
    match s.run with
    | .reset => .next s.hostLoad.release
    | .running => runCycle s
    | .halted => .next s.clearPort
    | .faulted => .next s.clearPort

/-- `s` with the instruction of an opcode-table word stored at `pc`, RUNNING and not in reset, so that the next step
fetches and runs it (log 3, log 16). -/
def State.withFetchWord (s : State) (nbits w : Nat) : State :=
  { s with
    mem := s.mem.writeBytes s.pc.toNat (tableBytes nbits w)
    run := .running
    pins := { s.pins with rst := false } }

end Sys2Proof.Machine
end

