-- ==== Sys2Proof/Machine/Asm.lean ====
section
/-! DEFINITION. Assembler syntax (30_encoding.md R110, R112, R113) over lists of characters. It has no part in a step
(decision D23; log 17). -/

namespace Sys2Proof.Machine

/-- The mnemonics as the spec spells them (R2, R112). -/
def mnemonicText : Mnemonic → List Char
  | .hlt => ['H', 'L', 'T']
  | .ret => ['R', 'E', 'T']
  | .push => ['P', 'U', 'S', 'H']
  | .pop => ['P', 'O', 'P']
  | .prn => ['P', 'R', 'N']
  | .call => ['C', 'A', 'L', 'L']
  | .jmp => ['J', 'M', 'P']
  | .jeq => ['J', 'E', 'Q']
  | .jne => ['J', 'N', 'E']
  | .ldi => ['L', 'D', 'I']
  | .add => ['A', 'D', 'D']
  | .mul => ['M', 'U', 'L']
  | .cmp => ['C', 'M', 'P']

/-- The mnemonic a text names: one of the thirteen, and no pseudo-instruction (R112). -/
def mnemonicNamed (cs : List Char) : Option Mnemonic :=
  (decodeTable.find? (fun e => mnemonicText e.mnemonic == cs)).map (fun e => e.mnemonic)

/-- The digit of a number below 10. -/
def digitChar (d : Nat) : Char := Char.ofNat ('0'.toNat + d)

/-- A byte in decimal, with no leading zero (R110). -/
def immText (v : Byte) : List Char :=
  if v.toNat < 10 then [digitChar v.toNat]
  else if v.toNat < 100 then [digitChar (v.toNat / 10), digitChar (v.toNat % 10)]
  else [digitChar (v.toNat / 100), digitChar (v.toNat / 10 % 10), digitChar (v.toNat % 10)]

/-- A register operand: `R` and its index (R110). -/
def regText (r : Byte) : List Char := 'R' :: immText r

/-- The text of an instruction: the mnemonic, a space, the operands separated by commas (R110). -/
def instrText : Instr → List Char
  | .hlt => mnemonicText .hlt
  | .ret => mnemonicText .ret
  | .push r => mnemonicText .push ++ ' ' :: regText r
  | .pop r => mnemonicText .pop ++ ' ' :: regText r
  | .prn r => mnemonicText .prn ++ ' ' :: regText r
  | .call r => mnemonicText .call ++ ' ' :: regText r
  | .jmp r => mnemonicText .jmp ++ ' ' :: regText r
  | .jeq r => mnemonicText .jeq ++ ' ' :: regText r
  | .jne r => mnemonicText .jne ++ ' ' :: regText r
  | .ldi r imm => mnemonicText .ldi ++ ' ' :: (regText r ++ ',' :: immText imm)
  | .add rA rB => mnemonicText .add ++ ' ' :: (regText rA ++ ',' :: regText rB)
  | .mul rA rB => mnemonicText .mul ++ ' ' :: (regText rA ++ ',' :: regText rB)
  | .cmp rA rB => mnemonicText .cmp ++ ' ' :: (regText rA ++ ',' :: regText rB)

/-- The value of a digit in a base up to 16; either case of a hexadecimal letter (log 17). -/
def digitValue (base : Nat) (c : Char) : Option Nat :=
  let v :=
    if '0'.toNat ≤ c.toNat ∧ c.toNat ≤ '9'.toNat then c.toNat - '0'.toNat
    else if 'a'.toNat ≤ c.toNat ∧ c.toNat ≤ 'f'.toNat then c.toNat - 'a'.toNat + 10
    else if 'A'.toNat ≤ c.toNat ∧ c.toNat ≤ 'F'.toNat then c.toNat - 'A'.toNat + 10
    else 16
  if v < base then some v else none

/-- The value of a run of digits after those already read. -/
def digitsValue (base acc : Nat) (cs : List Char) : Option Nat :=
  match cs with
  | [] => some acc
  | c :: rest =>
    match digitValue base c with
    | none => none
    | some d => digitsValue base (acc * base + d) rest

/-- A number from a non-empty run of digits, 0 to 255. -/
def byteFromDigits (base : Nat) (cs : List Char) : Option Byte :=
  match cs with
  | [] => none
  | c :: rest =>
    match digitsValue base 0 (c :: rest) with
    | none => none
    | some v => if v < 256 then some (BitVec.ofNat 8 v) else none

/-- An immediate: decimal, `0x` hexadecimal or `0b` binary, 0 to 255 (R110). -/
def parseImm (cs : List Char) : Option Byte :=
  match cs with
  | '0' :: 'x' :: ds => byteFromDigits 16 ds
  | '0' :: 'b' :: ds => byteFromDigits 2 ds
  | ds => byteFromDigits 10 ds

/-- A register operand: `R0` to `R7`, or `SP` for `R7` (R110, R113). -/
def parseReg (cs : List Char) : Option Byte :=
  match cs with
  | ['S', 'P'] => some 7
  | ['R', d] =>
    match digitValue 8 d with
    | none => none
    | some v => some (BitVec.ofNat 8 v)
  | _ => none

/-- The characters before the first `sep`, and those after it where there is one. -/
def cutAt (sep : Char) (cs : List Char) : List Char × Option (List Char) :=
  match cs with
  | [] => ([], none)
  | c :: rest =>
    if c = sep then ([], some rest)
    else ((c :: (cutAt sep rest).1), (cutAt sep rest).2)

/-- Two operands separated by the first comma. -/
def parsePair (second : List Char → Option Byte) (cs : List Char) : Option (Byte × Byte) :=
  match cutAt ',' cs with
  | (_, none) => none
  | (a, some b) =>
    match parseReg a, second b with
    | some x, some y => some (x, y)
    | _, _ => none

/-- The operand field of a mnemonic, by its format (R101, R110): absent for F0, one register for F1R, a register and an
immediate for F2RI, two registers for F2RR. -/
def parseOperands (m : Mnemonic) (field : Option (List Char)) : Option Instr :=
  match (entryOf m).nOps, field with
  | 0, none => some (buildInstr m 0 0)
  | 1, some cs => (parseReg cs).map (fun r => buildInstr m r 0)
  | 2, some cs =>
    (parsePair (if m = .ldi then parseImm else parseReg) cs).map (fun p => buildInstr m p.1 p.2)
  | _, _ => none

/-- One instruction from its text (R110). -/
def parseInstr (cs : List Char) : Option Instr :=
  match mnemonicNamed (cutAt ' ' cs).1 with
  | none => none
  | some m => parseOperands m (cutAt ' ' cs).2

/-- The pieces between `;`, at most `fuel` of them (R110: instructions in running text are separated by `;`). -/
def splitStatements (fuel : Nat) (cs : List Char) : List (List Char) :=
  match fuel with
  | 0 => []
  | k + 1 =>
    match cutAt ';' cs with
    | (a, none) => [a]
    | (a, some b) => a :: splitStatements k b

/-- The image of a list of statements, spaces before a mnemonic dropped. -/
def assembleAll (statements : List (List Char)) : Option (List Byte) :=
  match statements with
  | [] => some []
  | t :: rest =>
    match parseInstr (t.dropWhile (fun c => c == ' ')), assembleAll rest with
    | some i, some bytes => some (encode i ++ bytes)
    | _, _ => none

/-- The image of a program text: every mnemonic assembles to exactly one instruction (R112). -/
def assemble (cs : List Char) : Option (List Byte) := assembleAll (splitStatements (cs.length + 1) cs)

end Sys2Proof.Machine
end

