-- ==== Sys2Proof/Machine/Micro.lean ====
section
/-! DEFINITION. The clock-level micro-sequence the spec gives as one realisation (40_control_fsm.md R145 to R147), with
the arbiter's grant and the memory port (20_memory.md R76 to R79) and the clock counts (70_reset_and_hazards.md R275).
It is no part of the architectural state (10_state.md R47) and `step` does not use it (log 15). -/

namespace Sys2Proof.Machine

/-- The micro-FSM states of R145. -/
inductive MicroStage where
  | sReset | sFetch | sOp1 | sOp2 | sExec | sHalt | sFault
deriving DecidableEq, Repr

/-- The decoder outputs for an opcode that has an entry (R104), as R145 latches them. `aluOp` is `alu_op[3:0]` where
`alu_en` = 1 and none where `alu_en` = 0. -/
structure DecoderOutputs where
  /-- `n_ops[1:0]`. -/
  nOps : Nat
  /-- `op_sel`. -/
  opSel : Mnemonic
  /-- `sets_pc`. -/
  setsPc : Bool
  /-- `alu_en` and `alu_op[3:0]`. -/
  aluOp : Option (BitVec 4)
  /-- `halt`. -/
  halt : Bool
deriving DecidableEq, Repr

/-- The outputs a row of the decode table gives (R104). -/
def entryOutputs (e : DecodeEntry) : DecoderOutputs where
  nOps := e.nOps
  opSel := e.mnemonic
  setsPc := e.setsPc
  aluOp := e.aluOp
  halt := e.halt

/-- The decoder on an opcode byte (R104): none is `valid` = 0. -/
def decoderOutputs (op : Byte) : Option DecoderOutputs := (lookupOpcode op).map entryOutputs

/-- The machine between two clock edges: the architectural state, the FSM state and the latches of R145, which are `IR`,
`O1`, `O2`, the decoder outputs of R104 (none is `valid` = 0), and nothing else. -/
structure Micro where
  core : State
  stage : MicroStage
  ir : Byte
  o1 : Byte
  o2 : Byte
  dec : Option DecoderOutputs
deriving DecidableEq, Repr

/-- The FSM state at a cycle boundary (R145, R146). -/
def RunState.boundary : RunState → MicroStage
  | .reset => .sReset
  | .running => .sFetch
  | .halted => .sHalt
  | .faulted => .sFault

/-- The run state a FSM state belongs to (R145). -/
def MicroStage.runState : MicroStage → RunState
  | .sReset => .reset
  | .sFetch => .running
  | .sOp1 => .running
  | .sOp2 => .running
  | .sExec => .running
  | .sHalt => .halted
  | .sFault => .faulted

/-! ### The arbiter and the memory port -/

/-- The arbiter's requesters (R76). -/
inductive Requester where
  | hostLoad | fetchUnit | executeUnit
deriving DecidableEq, Repr

/-- The grant, fixed by the FSM state (R76). -/
def MicroStage.granted : MicroStage → Option Requester
  | .sReset => some .hostLoad
  | .sFetch => some .fetchUnit
  | .sOp1 => some .fetchUnit
  | .sOp2 => some .fetchUnit
  | .sExec => some .executeUnit
  | .sHalt => none
  | .sFault => none

/-- One access on the memory port (R79): `mem_re` = 1 with `mem_addr`, or `mem_we` = 1 with `mem_addr` and
`mem_wdata`. -/
inductive MemAccess where
  | read (addr : Byte)
  | write (addr : Byte) (wdata : Byte)
deriving DecidableEq, Repr

/-- The read of the byte `k` places after the opcode's; none when the address is 256 or more, where the arbiter issues no
access (R77). -/
def fetchAccess (s : State) (k : Nat) : Option MemAccess :=
  if 256 ≤ s.pc.toNat + k then none else some (.read (BitVec.ofNat 8 (s.pc.toNat + k)))

/-- The access of S_EXEC (R146): PUSH and CALL write at R7 - 1, POP and RET read at R7, and only when every fault check
of the instruction has passed. The write needs that (R147). DESIGN CHOICE (log 20): so does the read, where R146 leaves it
open whether POP's or RET's request stands in a clock whose check fails. -/
def stackAccess (i : Instr) (s : State) : Option MemAccess :=
  match i with
  | .push r =>
    match checkReg r, pushBound s with
    | .ok k, .ok sp => some (.write (sp - 1) ((s.setReg spIndex (sp - 1)).reg k))
    | _, _ => none
  | .call r =>
    match checkReg r, pushBound s, returnAddress s with
    | .ok _, .ok sp, .ok ret => some (.write (sp - 1) ret)
    | _, _, _ => none
  | .pop r =>
    match checkReg r, popBound s with
    | .ok _, .ok sp => some (.read sp)
    | _, _ => none
  | .ret =>
    match popBound s with
    | .ok sp => some (.read sp)
    | .error _ => none
  | .hlt => none
  | .prn _ => none
  | .jmp _ => none
  | .jeq _ => none
  | .jne _ => none
  | .ldi _ _ => none
  | .add _ _ => none
  | .mul _ _ => none
  | .cmp _ _ => none

/-- Which byte of the instruction a fetch state reads: the opcode, operand 1 or operand 2 (R146). -/
def MicroStage.fetchOffset : MicroStage → Nat
  | .sReset => 0
  | .sFetch => 0
  | .sOp1 => 1
  | .sOp2 => 2
  | .sExec => 0
  | .sHalt => 0
  | .sFault => 0

/-- The access of the granted requester on the memory port before the next clock edge; none is `mem_we` = `mem_re` = 0.
With `rst` = 1 a cycle in flight writes nothing, since it commits nothing (R141). DESIGN CHOICE (log 20): it requests no
read in that clock either, which R141 and R146 leave open. -/
def Micro.memPort (m : Micro) : Option MemAccess :=
  match m.stage.granted with
  | none => none
  | some .hostLoad =>
    if m.core.pins.loadWe = true then some (.write m.core.pins.loadAddr m.core.pins.loadData) else none
  | some .fetchUnit => if m.core.pins.rst = true then none else fetchAccess m.core m.stage.fetchOffset
  | some .executeUnit =>
    if m.core.pins.rst = true then none
    else
      match m.dec with
      | none => none
      | some d => stackAccess (buildInstr d.opSel m.o1 m.o2) m.core

/-- `mem_rdata[7:0]` (R79): the memory array's answer to the access on the port, in the same clock cycle. While `mem_re` = 0
it carries nothing (log 15). -/
def arrayRdata (mem : Memory) (port : Option MemAccess) : Option Byte :=
  match port with
  | none => none
  | some (.read a) => some (mem.read a.toNat)
  | some (.write _ _) => none

/-- The memory array after the clock edge (R79): a write is performed at the edge. -/
def arrayAtEdge (mem : Memory) (port : Option MemAccess) : Memory :=
  match port with
  | none => mem
  | some (.read _) => mem
  | some (.write a v) => mem.write a.toNat v

/-- The byte on `mem_rdata`, an input of the CORE. -/
def Micro.memRdata (m : Micro) : Option Byte := arrayRdata m.core.mem m.memPort

/-- What the execute unit sees of memory in S_EXEC: the byte on `mem_rdata` at the address it requested, and no other
cell. -/
def readView (port : Option MemAccess) (rdata : Option Byte) : Memory :=
  match port, rdata with
  | some (.read a), some v => Memory.write [] a.toNat v
  | some (.read _), none => []
  | some (.write _ _), _ => []
  | none, _ => []

/-! ### The clock edge -/

/-- "fault" in any state (R146): load the fault record, commit nothing else, go to S_FAULT. DESIGN CHOICE (log 19): the
latches are part of "nothing else", so an edge that faults leaves every latch as it was. -/
def Micro.fault (m : Micro) (e : DecodeError) : Micro :=
  { m with core := fetchFault e m.core.clearPort, stage := .sFault }

/-- The S_FETCH row of R146: `IR` takes the byte on `mem_rdata`, and the decoder outputs are latched with it. There is none
exactly where the arbiter issued no access and reports MemoryFault (R77). DESIGN CHOICE (log 19): the row writes
`IR <- data` before its fault for no entry, and the model leaves `IR` as it was at that edge. -/
def Micro.clockFetch (m : Micro) : Micro :=
  match m.memRdata with
  | none => m.fault .noOpcode
  | some op =>
    match decoderOutputs op with
    | none => m.fault (.unknownOpcode op)
    | some d =>
      { m with core := m.core.clearPort, ir := op, dec := some d, stage := if d.nOps = 0 then .sExec else .sOp1 }

/-- The latched `n_ops` (R104, R145); 0 where `valid` = 0 is latched, which no reachable operand state meets. -/
def Micro.nOps (m : Micro) : Nat :=
  match m.dec with
  | none => 0
  | some d => d.nOps

/-- The S_OP1 row of R146: `O1` takes the byte on `mem_rdata`. -/
def Micro.clockOp1 (m : Micro) : Micro :=
  match m.memRdata with
  | none => m.fault (.missingOperand m.ir 1)
  | some b => { m with core := m.core.clearPort, o1 := b, stage := if m.nOps = 2 then .sOp2 else .sExec }

/-- The S_OP2 row of R146: `O2` takes the byte on `mem_rdata`. -/
def Micro.clockOp2 (m : Micro) : Micro :=
  match m.memRdata with
  | none => m.fault (.missingOperand m.ir 2)
  | some b => { m with core := m.core.clearPort, o2 := b, stage := .sExec }

/-- The state after S_EXEC (R146): S_FAULT when a fault check failed, else S_HALT for HLT, which is the latched `halt`,
else S_FETCH. -/
def execSuccessor (d : DecoderOutputs) (t : State) : MicroStage :=
  if t.run = .faulted then .sFault else if d.halt = true then .sHalt else .sFetch

/-- The S_EXEC row of R146: every fault check and every write of the instruction at one clock edge (R147). Memory is
reached through the port alone (R76, R79): the rule of the latched `op_sel` runs on what `mem_rdata` shows, and the array takes the port's
write. -/
def Micro.clockExec (m : Micro) : Micro :=
  match m.dec with
  | none => m.fault (.unknownOpcode m.ir)
  | some d =>
    match exec (buildInstr d.opSel m.o1 m.o2) { m.core.clearPort with mem := readView m.memPort m.memRdata } with
    | .next t => { m with core := { t with mem := arrayAtEdge m.core.mem m.memPort }, stage := execSuccessor d t }
    | .fault r => nomatch r
    | .refused _ => m

/-- In an operand or execute state the latched decoder outputs are those of the latched opcode byte, which has an entry
(R145, R146), with the operand count that leads there. -/
abbrev Micro.LatchesAgree (m : Micro) : Prop :=
  (m.stage = .sOp1 ∨ m.stage = .sOp2 ∨ m.stage = .sExec →
    m.dec = decoderOutputs m.ir ∧ (lookupOpcode m.ir).isSome = true) ∧
  (m.stage = .sOp1 → 1 ≤ m.nOps) ∧ (m.stage = .sOp2 → m.nOps = 2)

/-- The same machine with another memory array behind the port. -/
def Micro.withMem (m : Micro) (mem : Memory) : Micro := { m with core := { m.core with mem := mem } }

/-- One clock edge (R146). `rst` = 1 goes to S_RESET from any state. -/
def Micro.clock (m : Micro) : Micro :=
  if m.core.pins.rst = true then { m with core := m.core.hostLoad.applyReset, stage := .sReset }
  else
    match m.stage with
    | .sReset => { m with core := m.core.hostLoad.release, stage := .sFetch }
    | .sFetch => m.clockFetch
    | .sOp1 => m.clockOp1
    | .sOp2 => m.clockOp2
    | .sExec => m.clockExec
    | .sHalt => { m with core := m.core.clearPort }
    | .sFault => { m with core := m.core.clearPort }

/-- `n` clock edges with the pins held. -/
def Micro.clocks (n : Nat) (m : Micro) : Micro :=
  match n with
  | 0 => m
  | k + 1 => Micro.clocks k m.clock

/-- The clock edges from S_FETCH to the end of the instruction cycle (R275): 2 + n for an instruction with n operands,
and for a failed fetch the states up to the one that detects the fault. -/
def cycleClocks (s : State) : Nat :=
  match decodeWith (fetchByte s) with
  | .ok i => 2 + i.operands.length
  | .error .noOpcode => 1
  | .error (.unknownOpcode _) => 1
  | .error (.missingOperand _ k) => 1 + k

end Sys2Proof.Machine
end

