-- ==== Sys2Proof/Machine/Boot.lean ====
section
/-! DEFINITION. The host's side: runs under a list of pin levels, one entry a step, and the boot sequence
(70_reset_and_hazards.md R263). -/

namespace Sys2Proof.Machine

/-- One step for each entry, the pins at the entry's levels; it stops at a fault or a refusal (log 6). -/
def runInputs (inputs : List HostPins) (s : State) : Host.Outcome State Fault Refusal :=
  match inputs with
  | [] => .next s
  | p :: rest =>
    match step (s.drive p) with
    | .next t => runInputs rest t
    | .fault r => .fault r
    | .refused r => .refused r

/-- `rst` asserted, no load (R263 step 1). -/
def HostPins.assertReset : HostPins := { HostPins.idle with rst := true }

/-- `rst` asserted and one byte offered on the load port (R80, R263 step 2). -/
def HostPins.load (a : Nat) (v : Byte) : HostPins :=
  { rst := true, loadWe := true, loadAddr := BitVec.ofNat 8 a, loadData := v }

/-- The loads of `n` cells from address `a`: the image's byte where it has one, else 0x00 (R263 step 2, R87). -/
def loadInputs (image : List Byte) (a n : Nat) : List HostPins :=
  match n with
  | 0 => []
  | k + 1 => HostPins.load a (image.getD a 0) :: loadInputs image (a + 1) k

/-- The boot sequence of R263, steps 1 to 3: assert, write all 256 cells, release. -/
def bootInputs (image : List Byte) : List HostPins :=
  HostPins.assertReset :: (loadInputs image 0 256 ++ [HostPins.idle])

end Sys2Proof.Machine
end

