-- ==== Sys2Proof/Safety.lean ====
section
/-! DEFINITION. What a legal state is, in the terms the claims use: the invariant of the machine, part by part. -/

namespace Sys2Proof.Machine

/-- Memory keeps its canonical form. -/
abbrev State.MemOk (s : State) : Prop := s.mem.wf = true

/-- `pc` never passes 256 (10_state.md R35, 40_control_fsm.md R143). -/
abbrev State.PcOk (s : State) : Prop := s.pc.toNat ≤ 256

/-- The configuration meets its constraint (R48). -/
abbrev State.CfgOk (s : State) : Prop := s.cfg.valid = true

/-- The fault record is at its reset value (R41 to R44). -/
abbrev State.RecordClear (s : State) : Prop :=
  s.fcause = .none ∧ s.fpc = 0 ∧ s.fop = 0 ∧ s.finfo = 0

/-- The mnemonic of the recorded opcode byte is one of a list. -/
abbrev State.FopIn (s : State) (ms : List Mnemonic) : Prop :=
  ((lookupOpcode s.fop).any (fun e => ms.contains e.mnemonic)) = true

/-- The recorded MemoryFault is one R231 allows: address 256, from the opcode fetch at 256 or from a cycle at 254 or
255. -/
abbrev State.MemoryRecord (s : State) : Prop :=
  s.finfo = 256 ∧
    ((s.fpc = 256 ∧ s.fop = 0) ∨ ((s.fpc = 254 ∨ s.fpc = 255) ∧ (lookupOpcode s.fop).isSome = true))

/-- The recorded RegisterFault is one R232 allows: an index byte 8 to 255, of an instruction with a register operand. -/
abbrev State.RegisterRecord (s : State) : Prop :=
  8 ≤ s.finfo.toNat ∧ s.finfo.toNat ≤ 255 ∧
    s.FopIn [.ldi, .prn, .add, .mul, .push, .pop, .call, .cmp, .jmp, .jeq, .jne]

/-- The recorded StackFault is one R233 allows: R7, outside the bound the instruction checks. -/
abbrev State.StackRecord (s : State) : Prop :=
  s.finfo = zext9 (s.reg 7) ∧
    ((s.FopIn [.push, .call] ∧ (s.reg 7).toNat ≤ s.cfg.stackBase.toNat) ∨
      (s.FopIn [.pop, .ret] ∧ s.cfg.spInit.toNat ≤ (s.reg 7).toNat))

/-- The recorded UnknownInstruction is one R235 allows: the opcode byte, which has no decode-table entry. -/
abbrev State.UnknownRecord (s : State) : Prop :=
  s.finfo = zext9 s.fop ∧ lookupOpcode s.fop = none

/-- The fault record tells a fault the CORE can raise, at `pc` (R230, R237); UnsupportedOperation never (R234). -/
abbrev State.RecordFits (s : State) : Prop :=
  s.fpc = s.pc ∧
    ((s.fcause = .memory ∧ s.MemoryRecord) ∨ (s.fcause = .register ∧ s.RegisterRecord) ∨
      (s.fcause = .stack ∧ s.StackRecord) ∨ (s.fcause = .unknownInstruction ∧ s.UnknownRecord))

/-- The record fits a fault in FAULTED and is clear in every other run state. -/
abbrev State.RecordOk (s : State) : Prop :=
  (s.run = .faulted → s.RecordFits) ∧ (s.run ≠ .faulted → s.RecordClear)

/-- In RESET the registers, `pc` and `FL` are at their reset values and nothing has been output (R146, R260). -/
abbrev State.ResetOk (s : State) : Prop :=
  s.run = .reset →
    s.regs = #v[0, 0, 0, 0, 0, 0, 0, s.cfg.spInit] ∧ s.pc = 0 ∧ s.fl = .none ∧ s.output = []

/-- The byte on the output port is the last event of the sequence, and only a running CORE offers one (R247). -/
abbrev State.PortOk (s : State) : Prop :=
  s.outPort = none ∨ (s.run = .running ∧ s.outPort = s.output.getLast?)

/-- The invariant every step keeps. -/
abbrev State.Inv (s : State) : Prop :=
  s.MemOk ∧ s.PcOk ∧ s.CfgOk ∧ s.RecordOk ∧ s.ResetOk ∧ s.PortOk

/-- A run has ended (R267): HALTED is success, FAULTED is the execution fault (R250). -/
abbrev State.Ended (s : State) : Prop := s.run = .halted ∨ s.run = .faulted

/-- The registers an instruction may write (R32): its destination operand, and R7 for the stack instructions. -/
def mayWriteReg (i : Instr) (j : Fin 8) : Bool :=
  match i with
  | .ldi r _ => r.toNat = j.val
  | .add rA _ => rA.toNat = j.val
  | .mul rA _ => rA.toNat = j.val
  | .pop r => r.toNat = j.val || j = 7
  | .push _ => j = 7
  | .call _ => j = 7
  | .ret => j = 7
  | .hlt => false
  | .prn _ => false
  | .jmp _ => false
  | .jeq _ => false
  | .jne _ => false
  | .cmp _ _ => false

/-- One instruction executed `n` times in a row; none as soon as one of them faults (R180). -/
def repeatExec (n : Nat) (i : Instr) (s : State) : Option State :=
  match n with
  | 0 => some s
  | k + 1 =>
    match exec i s with
    | .next t => if t.run = .faulted then none else repeatExec k i t
    | .fault _ => none
    | .refused _ => none

/-- The bytes of memory from `pc` to the last cell: what the fetch unit can read (R132, R134). -/
def bytesAtPc (s : State) : List Byte := (List.range' s.pc.toNat (256 - s.pc.toNat)).map s.mem.read

end Sys2Proof.Machine
end

