-- ==== Sys2Proof/Certificates/Slice0/Obligations.lean ====
section
/-! DEFINITION. The statements for the provers. Each names what it states; its docstring cites the rule of spec/. Where a
clause rests on one of the spec's own decisions (92_eei_decisions.md D<n>) or on a log entry, the docstring says so. -/

open Sys2Proof Sys2Proof.Machine

/-! ### Encoding -/

/-- R103, R101: each row's bytes, written out from the opcode map with distinct operand bytes, decode to the instruction
they stand for. Ten opcode bytes are the spec's general-knowledge values (D2, log 9). -/
def Obligations.WrittenWordsDecode : Prop :=
  decode [0b00000001] = .ok (.hlt, []) ∧
  decode [0b00010001] = .ok (.ret, []) ∧
  decode [0b01000101, 0x02] = .ok (.push 2, []) ∧
  decode [0b01000110, 0x03] = .ok (.pop 3, []) ∧
  decode [0b01000111, 0x00] = .ok (.prn 0, []) ∧
  decode [0b01010000, 0x01] = .ok (.call 1, []) ∧
  decode [0b01010100, 0xFF] = .ok (.jmp 0xFF, []) ∧
  decode [0b01010101, 0x04] = .ok (.jeq 4, []) ∧
  decode [0b01010110, 0x05] = .ok (.jne 5, []) ∧
  decode [0b10000010, 0x00, 0x08] = .ok (.ldi 0 8, []) ∧
  decode [0b10100000, 0x01, 0x02] = .ok (.add 1 2, []) ∧
  decode [0b10100010, 0x03, 0x04] = .ok (.mul 3 4, []) ∧
  decode [0b10100111, 0x05, 0x06] = .ok (.cmp 5 6, [])

/-- R100 to R103: decoding answers an instruction exactly when the bytes begin with its encoding, with the bytes after it
left over. So decode of encode is the instruction at every operand value, no two instructions share bytes, and no bytes
decode to an instruction they do not encode. -/
def Obligations.DecodeInvertsEncode : Prop :=
  ∀ (bytes rest : List Byte) (i : Instr), decode bytes = .ok (i, rest) ↔ bytes = encode i ++ rest

/-- R106, R133: an opcode byte outside the thirteen is rejected by name whatever follows it, and only such a byte is. Ten
of the thirteen bytes are the spec's general-knowledge values (D2, log 9). -/
def Obligations.OnlyThirteenOpcodesDecode : Prop :=
  ∀ (op : Byte) (rest : List Byte),
    decode (op :: rest) = .error (.unknownOpcode op) ↔
      op ∉ ([0x01, 0x11, 0x45, 0x46, 0x47, 0x50, 0x54, 0x55, 0x56, 0x82, 0xA0, 0xA2, 0xA7] : List Byte)

/-- R104, R105: the decoder outputs of every row: bits [7:6] of the opcode are the operand count, bit 5 marks ADD, MUL and
CMP, bit 4 is `sets_pc`; only ADD and MUL reach the ALU, with codes 0x0 and 0x2; only HLT halts. The layout is general
knowledge (K3, log 9). -/
def Obligations.DecoderOutputsFollowTable : Prop :=
  ∀ m : Mnemonic,
    (entryOf m).opcode.toNat / 64 = (entryOf m).nOps ∧
    ((entryOf m).opcode.getLsbD 5 = true ↔ m = .add ∨ m = .mul ∨ m = .cmp) ∧
    ((entryOf m).opcode.getLsbD 4 = (entryOf m).setsPc) ∧
    ((entryOf m).setsPc = true ↔ m = .call ∨ m = .ret ∨ m = .jmp ∨ m = .jeq ∨ m = .jne) ∧
    ((entryOf m).aluOp = if m = .add then some 0x0 else if m = .mul then some 0x2 else none) ∧
    ((entryOf m).halt = true ↔ m = .hlt)

/-- R110, R113: the assembler reads back the text it writes for every instruction that names existing registers, and
reads `SP` as R7. Decision D23, log 17. -/
def Obligations.AssemblerReadsItsOwnText : Prop :=
  (∀ i : Instr, WellFormed i = true → parseInstr (instrText i) = some i) ∧
  parseInstr ['P', 'U', 'S', 'H', ' ', 'S', 'P'] = some (.push 7)

/-! ### The cycle -/

/-- R131, R132, R134: when the bytes from `pc` on decode to an instruction, a step in RUNNING with `rst` low is that
instruction's meaning at this state, the output strobe of the step before being over (log 8). -/
def Obligations.StepRunsDecodedInstruction : Prop :=
  ∀ (s : State) (i : Instr) (rest : List Byte),
    s.run = .running → s.pins.rst = false → decode (bytesAtPc s) = .ok (i, rest) →
      step s = exec i { s with outPort := none }

/-- Log 3, log 16: an opcode-table word stored where the next step fetches is the instruction that step runs, wherever it
fits below 256. -/
def Obligations.StoredTableWordRunsNext : Prop :=
  ∀ (s : State) (nbits w : Nat) (i : Instr),
    s.pc.toNat + 3 ≤ 256 → decodeTableWord nbits w = some i →
      step (s.withFetchWord nbits w) = exec i { s.withFetchWord nbits w with outPort := none }

/-- R130, R131: every step answers a next state; the model stops nowhere (log 11). -/
def Obligations.EveryStepAnswers : Prop :=
  ∀ s : State, ∃ t, step s = .next t

/-- R136: the next `pc` of a fetched instruction that does not fault, instruction by instruction. The targets are those of
R190, R191 and R210 to R212; that CALL R7 goes to the decremented R7 is decision D16, that HLT advances is D15
(log 10). -/
def Obligations.ProgramCounterAdvancesOrJumps : Prop :=
  ∀ (i : Instr) (s t : State),
    s.run ≠ .faulted → s.pc.toNat + i.length ≤ 256 → exec i s = .next t → t.run ≠ .faulted →
      match i with
      | .ldi _ _ => t.pc.toNat = s.pc.toNat + 1 + 2
      | .prn _ => t.pc.toNat = s.pc.toNat + 1 + 1
      | .add _ _ => t.pc.toNat = s.pc.toNat + 1 + 2
      | .mul _ _ => t.pc.toNat = s.pc.toNat + 1 + 2
      | .push _ => t.pc.toNat = s.pc.toNat + 1 + 1
      | .pop _ => t.pc.toNat = s.pc.toNat + 1 + 1
      | .cmp _ _ => t.pc.toNat = s.pc.toNat + 1 + 2
      | .hlt => t.pc.toNat = s.pc.toNat + 1
      | .call r => ∃ h : r.toNat < 8, t.pc.toNat = (t.regs[r.toNat]).toNat
      | .ret => t.pc.toNat = (s.mem.read (s.reg 7).toNat).toNat
      | .jmp r => ∃ h : r.toNat < 8, t.pc.toNat = (s.regs[r.toNat]).toNat
      | .jeq r =>
        ∃ h : r.toNat < 8, t.pc.toNat = if s.fl = .eq then (s.regs[r.toNat]).toNat else s.pc.toNat + 1 + 1
      | .jne r =>
        ∃ h : r.toNat < 8, t.pc.toNat = if s.fl = .eq then s.pc.toNat + 1 + 1 else (s.regs[r.toNat]).toNat

/-! ### LDI and PRN -/

/-- R160: LDI stores its immediate as is, `pc` advances by 3, nothing else changes; a register byte from 8 up raises
RegisterFault and no write happens. The corner cases at the end of memory: an LDI at 253 takes its immediate from 255 and
leaves `pc` = 256, where the next cycle faults with MemoryFault(256); one at 254 or 255 faults so itself and writes
nothing. -/
def Obligations.LdiLoadsImmediate : Prop :=
  ∀ (r imm : Byte) (s : State),
    encode (.ldi r imm) = [0x82, r, imm] ∧
    (∀ h : r.toNat < 8,
      exec (.ldi r imm) s = .next { s with regs := s.regs.set r.toNat imm, pc := s.pc + 3 }) ∧
    (8 ≤ r.toNat → ∃ t, exec (.ldi r imm) s = .next t ∧ t.run = .faulted ∧ t.fcause = .register ∧
      t.finfo.toNat = r.toNat ∧ t.regs = s.regs ∧ t.fl = s.fl ∧ t.mem = s.mem ∧ t.output = s.output) ∧
    (s.run = .running → s.pins.rst = false → s.mem.read s.pc.toNat = 0x82 →
      (∀ h : r.toNat < 8, s.pc = 253 → s.mem.read 254 = r → s.mem.read 255 = imm →
        ∃ t u, step s = .next t ∧ t.regs = s.regs.set r.toNat imm ∧ t.pc = 256 ∧
          step t = .next u ∧ u.run = .faulted ∧ u.fcause = .memory ∧ u.finfo = 256) ∧
      (s.pc = 254 ∨ s.pc = 255 →
        ∃ t, step s = .next t ∧ t.run = .faulted ∧ t.fcause = .memory ∧ t.finfo = 256 ∧ t.regs = s.regs ∧
          t.fl = s.fl ∧ t.mem = s.mem ∧ t.output = s.output))

/-- R161: PRN emits one event with the register's byte, `pc` advances by 2, nothing else changes; a register byte from 8 up
raises RegisterFault and no event is emitted. -/
def Obligations.PrnEmitsRegister : Prop :=
  ∀ (r : Byte) (s : State),
    encode (.prn r) = [0x47, r] ∧
    (∀ h : r.toNat < 8,
      exec (.prn r) s =
        .next { s with output := s.output ++ [s.regs[r.toNat]], outPort := some s.regs[r.toNat], pc := s.pc + 2 }) ∧
    (8 ≤ r.toNat → ∃ t, exec (.prn r) s = .next t ∧ t.run = .faulted ∧ t.fcause = .register ∧
      t.finfo.toNat = r.toNat ∧ t.regs = s.regs ∧ t.fl = s.fl ∧ t.mem = s.mem ∧ t.output = s.output)

/-! ### ADD and MUL -/

/-- R172: ADD writes the sum to its first operand and advances by 3; nothing else changes. -/
def Obligations.AddWritesSum : Prop :=
  ∀ (rA rB : Byte) (s : State) (ha : rA.toNat < 8) (hb : rB.toNat < 8),
    exec (.add rA rB) s =
      .next { s with regs := s.regs.set rA.toNat (s.regs[rA.toNat] + s.regs[rB.toNat]), pc := s.pc + 3 }

/-- R173: MUL writes the low byte of the product to its first operand and advances by 3; nothing else changes. -/
def Obligations.MulWritesLowProduct : Prop :=
  ∀ (rA rB : Byte) (s : State) (ha : rA.toNat < 8) (hb : rB.toNat < 8),
    exec (.mul rA rB) s =
      .next { s with regs := s.regs.set rA.toNat (s.regs[rA.toNat] * s.regs[rB.toNat]), pc := s.pc + 3 }

/-- R174: the exact unsigned result is reduced modulo 256 and written; nothing records what is discarded: every other
register, `FL`, memory, the output and the fault record are as before. -/
def Obligations.AluReducesModulo256 : Prop :=
  ∀ (rA rB : Byte) (s : State) (ha : rA.toNat < 8) (hb : rB.toNat < 8),
    (∃ t, exec (.add rA rB) s = .next t ∧
      (t.regs[rA.toNat]).toNat = ((s.regs[rA.toNat]).toNat + (s.regs[rB.toNat]).toNat) % 256 ∧
      t = { s with regs := s.regs.set rA.toNat t.regs[rA.toNat], pc := t.pc }) ∧
    (∃ t, exec (.mul rA rB) s = .next t ∧
      (t.regs[rA.toNat]).toNat = ((s.regs[rA.toNat]).toNat * (s.regs[rB.toNat]).toNat) % 256 ∧
      t = { s with regs := s.regs.set rA.toNat t.regs[rA.toNat], pc := t.pc })

/-- R170, R171, R234: the ALU given a code other than ADD's and MUL's raises UnsupportedOperation with the code, whatever
the registers; the codes are D28. -/
def Obligations.AluGuardRaises : Prop :=
  ∀ (op : BitVec 4) (rA rB : Byte) (s : State),
    rA.toNat < 8 → rB.toNat < 8 → op ≠ 0x0 → op ≠ 0x2 →
      aluApply op rA rB s = .error { cause := .unsupportedOperation, info := op.setWidth 9 }

/-! ### The stack, CALL and RET -/

/-- R183, R181: PUSH decrements R7, stores the register as it is AFTER the decrement at the new R7, and advances by 2;
nothing else changes. PUSH R7 is D16. -/
def Obligations.PushStoresBelowStackPointer : Prop :=
  ∀ (r : Byte) (s : State) (h : r.toNat < 8), s.cfg.stackBase.toNat < s.regs[7].toNat →
    exec (.push r) s =
      .next { s with
        regs := s.regs.set 7 (s.regs[7] - 1)
        mem := s.mem.write (s.regs[7].toNat - 1) (s.regs.set 7 (s.regs[7] - 1))[r.toNat]
        pc := s.pc + 2 }

/-- R184, R182: POP loads the top cell, then increments R7 as it is AFTER the load, and advances by 2; nothing else
changes. POP R7 is D16. -/
def Obligations.PopLoadsTopThenIncrements : Prop :=
  ∀ (r : Byte) (s : State) (h : r.toNat < 8), s.regs[7].toNat < s.cfg.spInit.toNat →
    exec (.pop r) s =
      .next { s with
        regs := (s.regs.set r.toNat (s.mem.read s.regs[7].toNat)).set 7
          ((s.regs.set r.toNat (s.mem.read s.regs[7].toNat))[7] + 1)
        pc := s.pc + 2 }

/-- R190, R181: CALL pushes the address after it and jumps to the register as it is AFTER the push; nothing else changes.
CALL R7 is D16. -/
def Obligations.CallPushesReturnAddress : Prop :=
  ∀ (r : Byte) (s : State) (h : r.toNat < 8),
    s.cfg.stackBase.toNat < s.regs[7].toNat → s.pc.toNat + 2 < 256 →
      exec (.call r) s =
        .next { s with
          regs := s.regs.set 7 (s.regs[7] - 1)
          mem := s.mem.write (s.regs[7].toNat - 1) (BitVec.ofNat 8 (s.pc.toNat + 2))
          pc := ((s.regs.set 7 (s.regs[7] - 1))[r.toNat]).setWidth 9 }

/-- R191, R182: RET pops the top cell into `pc` and increments R7; nothing else changes. -/
def Obligations.RetPopsReturnAddress : Prop :=
  ∀ s : State, s.regs[7].toNat < s.cfg.spInit.toNat →
    exec .ret s =
      .next { s with
        regs := s.regs.set 7 (s.regs[7] + 1)
        pc := (s.mem.read s.regs[7].toNat).setWidth 9 }

/-- R185: PUSH r then POP r, both without fault, restores every register, r = 7 included; the lasting change is the pushed
cell and `pc`. Derived by the spec from R183 and R184. -/
def Obligations.PushThenPopRestoresRegisters : Prop :=
  ∀ (r : Byte) (s : State) (h : r.toNat < 8),
    s.cfg.stackBase.toNat < s.regs[7].toNat → s.regs[7].toNat ≤ s.cfg.spInit.toNat →
      ∃ t u, exec (.push r) s = .next t ∧ exec (.pop r) t = .next u ∧
        u = { s with
          mem := s.mem.write (s.regs[7].toNat - 1) (s.regs.set 7 (s.regs[7] - 1))[r.toNat]
          pc := s.pc + 4 }

/-- R192: CALL followed by RET without fault resumes at p + 2 with every register as before the CALL. Derived by the spec
from R190 and R191. -/
def Obligations.CallThenRetResumes : Prop :=
  ∀ (r : Byte) (s : State), r.toNat < 8 →
    s.cfg.stackBase.toNat < s.regs[7].toNat → s.regs[7].toNat ≤ s.cfg.spInit.toNat → s.pc.toNat + 2 < 256 →
      ∃ t u, exec (.call r) s = .next t ∧ exec .ret t = .next u ∧
        u = { s with
          mem := s.mem.write (s.regs[7].toNat - 1) (BitVec.ofNat 8 (s.pc.toNat + 2))
          pc := s.pc + 2 }

/-- R180: from an empty stack exactly SP_INIT - STACK_BASE pushes in a row succeed, whatever the two constants. -/
def Obligations.StackHoldsItsCapacity : Prop :=
  ∀ (s : State) (r : Byte) (n : Nat),
    s.run = .running → r.toNat < 8 → s.cfg.valid = true → s.regs[7] = s.cfg.spInit →
      ((repeatExec n (.push r) s).isSome = true ↔ n ≤ s.cfg.spInit.toNat - s.cfg.stackBase.toNat)

/-! ### CMP, the jumps, HLT -/

/-- R200: CMP sets `FL` from the unsigned values of the two registers and advances by 3; nothing else changes. -/
def Obligations.CmpOrdersUnsigned : Prop :=
  ∀ (rA rB : Byte) (s : State) (ha : rA.toNat < 8) (hb : rB.toNat < 8),
    (s.regs[rA.toNat].toNat = s.regs[rB.toNat].toNat →
      exec (.cmp rA rB) s = .next { s with fl := .eq, pc := s.pc + 3 }) ∧
    (s.regs[rB.toNat].toNat < s.regs[rA.toNat].toNat →
      exec (.cmp rA rB) s = .next { s with fl := .gt, pc := s.pc + 3 }) ∧
    (s.regs[rA.toNat].toNat < s.regs[rB.toNat].toNat →
      exec (.cmp rA rB) s = .next { s with fl := .lt, pc := s.pc + 3 })

/-- R210, R213: JMP writes the register's byte to `pc`, `pc[8]` clear; nothing else changes. -/
def Obligations.JmpGoesToRegister : Prop :=
  ∀ (r : Byte) (s : State) (h : r.toNat < 8),
    exec (.jmp r) s = .next { s with pc := (s.regs[r.toNat]).setWidth 9 }

/-- R211, R212: under EQ, JEQ jumps and JNE advances by 2; under GT, LT and NONE (D7) JEQ advances by 2 and JNE jumps;
nothing else changes. -/
def Obligations.ConditionalJumpsAreOpposite : Prop :=
  ∀ (r : Byte) (s : State) (h : r.toNat < 8),
    (s.fl = .eq →
      exec (.jeq r) s = .next { s with pc := (s.regs[r.toNat]).setWidth 9 } ∧
      exec (.jne r) s = .next { s with pc := s.pc + 2 }) ∧
    (s.fl = .gt ∨ s.fl = .lt ∨ s.fl = .none →
      exec (.jeq r) s = .next { s with pc := s.pc + 2 } ∧
      exec (.jne r) s = .next { s with pc := (s.regs[r.toNat]).setWidth 9 })

/-- R138: HLT's cycle commits with its advance and `RUN` becomes HALTED, at every state; and then no cycle starts: with
`rst` low a step leaves the state as it is, but for the output strobe being over. That HLT advances is D15. -/
def Obligations.HltAdvancesAndHalts : Prop :=
  ∀ s : State,
    exec .hlt s = .next { s with run := .halted, pc := s.pc + 1 } ∧
    (s.pins.rst = false →
      step { s with run := .halted, pc := s.pc + 1 } = .next { s with run := .halted, pc := s.pc + 1, outPort := none })

/-- R38: JEQ is taken iff `FL` = EQ and JNE iff `FL` != EQ, NONE included, and no other instruction reads `FL`: changing
it before any other instruction changes nothing but `FL` after it. -/
def Obligations.OnlyJeqAndJneReadFlag : Prop :=
  (∀ (r : Byte) (s : State) (h : r.toNat < 8),
    exec (.jeq r) s =
      .next { s with pc := if s.fl = .eq then (s.regs[r.toNat]).setWidth 9 else s.pc + 2 } ∧
    exec (.jne r) s =
      .next { s with pc := if s.fl ≠ .eq then (s.regs[r.toNat]).setWidth 9 else s.pc + 2 }) ∧
  (∀ (i : Instr) (s t t' : State) (f : Flag),
    i.mnemonic ≠ .jeq → i.mnemonic ≠ .jne →
    exec i s = .next t → exec i { s with fl := f } = .next t' → { t' with fl := t.fl } = t)

/-- R37: only CMP writes `FL`, and a CMP that does not fault leaves exactly one of EQ, GT, LT, the same whatever `FL` held
before. -/
def Obligations.OnlyCmpWritesFlag : Prop :=
  (∀ (i : Instr) (s t : State), i.mnemonic ≠ .cmp → exec i s = .next t → t.fl = s.fl) ∧
  (∀ (rA rB : Byte) (s t : State) (f : Flag), rA.toNat < 8 → rB.toNat < 8 →
    exec (.cmp rA rB) s = .next t →
      (t.fl = .eq ∨ t.fl = .gt ∨ t.fl = .lt) ∧ exec (.cmp rA rB) { s with fl := f } = .next t)

/-! ### Frames -/

/-- R32, R37, R46, R48, R70: what every instruction leaves as it was. Registers: all but the destination operand of LDI,
ADD, MUL, POP and R7 for PUSH, POP, CALL, RET. `FL`: for all but CMP. Memory: every byte, for all but PUSH and CALL.
Output: for all but PRN. The fault record: unless the instruction faults. `RUN`: unless it faults or is HLT. The pins and
the configuration: always. -/
def Obligations.EveryInstructionKeepsItsFrame : Prop :=
  ∀ (i : Instr) (s t : State), exec i s = .next t →
    t.pins = s.pins ∧ t.cfg = s.cfg ∧
    (∀ j : Fin 8, mayWriteReg i j = false → t.reg j = s.reg j) ∧
    (i.mnemonic ≠ .cmp → t.fl = s.fl) ∧
    (i.mnemonic ≠ .push → i.mnemonic ≠ .call → ∀ a, t.mem.read a = s.mem.read a) ∧
    (i.mnemonic ≠ .prn → t.output = s.output ∧ t.outPort = s.outPort) ∧
    (t.run ≠ .faulted → t.fcause = s.fcause ∧ t.fpc = s.fpc ∧ t.fop = s.fop ∧ t.finfo = s.finfo) ∧
    (t.run = s.run ∨ t.run = .faulted ∨ (i = .hlt ∧ t.run = .halted))

/-- R73, R181, R183, R190: a PUSH or CALL changes no byte but the one at R7 - 1, and none at all when it faults. -/
def Obligations.StackStoresTouchOneCell : Prop :=
  ∀ (r : Byte) (i : Instr) (s t : State), i = .push r ∨ i = .call r → exec i s = .next t →
    (∀ a, a ≠ (s.regs[7] - 1).toNat → t.mem.read a = s.mem.read a) ∧
    (s.run ≠ .faulted → t.run = .faulted → ∀ a, t.mem.read a = s.mem.read a)

/-- R70: the nine instructions that are not PUSH, POP, CALL or RET neither read nor write memory in their execute step:
with any other memory in its place the result is the same, with that memory. POP and RET read and do not write. -/
def Obligations.OnlyStackInstructionsTouchMemory : Prop :=
  (∀ (i : Instr) (s t : State) (m : Memory),
    i.mnemonic ≠ .push → i.mnemonic ≠ .pop → i.mnemonic ≠ .call → i.mnemonic ≠ .ret →
      exec i s = .next t → t.mem = s.mem ∧ exec i { s with mem := m } = .next { t with mem := m }) ∧
  (∀ (i : Instr) (s t : State), i.mnemonic = .pop ∨ i.mnemonic = .ret → exec i s = .next t → t.mem = s.mem)

/-- R72, R73: MemRead and MemWrite: below 256 a write is read back, no other cell and no other state changes; at 256 and
above both raise MemoryFault with the address (the info field is 9 bits). -/
def Obligations.ArbiterReadsAndWritesOneCell : Prop :=
  ∀ (s : State) (a : Nat) (v : Byte),
    (a < 256 → memRead s a = .ok (s.mem.read a) ∧
      ∃ t, memWrite s a v = .ok t ∧ memRead t a = .ok v ∧ (∀ b, b ≠ a → memRead t b = memRead s b) ∧
        t = { s with mem := t.mem }) ∧
    (256 ≤ a → memRead s a = .error { cause := .memory, info := BitVec.ofNat 9 a } ∧
      memWrite s a v = .error { cause := .memory, info := BitVec.ofNat 9 a })

/-- R85, R266: code a PUSH writes is what the next fetch reads: a running PUSH of the HLT opcode into the byte after itself
is followed by a HLT. PUSH's byte 0x45 is the spec's general-knowledge value (D2, log 9); that no buffer stands between is
decision D33. -/
def Obligations.PushedHaltIsFetchedNext : Prop :=
  ∀ (r : Byte) (s : State) (h : r.toNat < 8),
    s.run = .running → s.pins.rst = false → s.cfg.stackBase.toNat < s.regs[7].toNat →
    s.pc.toNat + 3 = s.regs[7].toNat →
    s.mem.read s.pc.toNat = 0x45 → s.mem.read (s.pc.toNat + 1) = r →
    r.toNat ≠ 7 → s.regs[r.toNat] = 0x01 →
      ∃ t u, step s = .next t ∧ step t = .next u ∧ u.run = .halted ∧ u.pc = s.pc + 3

/-- R85, R266, R190: in the state right after a running PUSH or CALL, with `pc` at ANY address p, a fetch of the cell R7 - 1
reads the stored byte and a fetch of every other cell reads what it read before. PUSH R7 stores the decremented R7 (D16, log 10); no buffer stands between (D33). -/
def Obligations.FetchSeesStackWrites : Prop :=
  ∀ (r : Byte) (rest : List Byte) (s : State) (h : r.toNat < 8),
    s.run = .running → s.pins.rst = false → s.cfg.stackBase.toNat < s.regs[7].toNat →
      (decode (bytesAtPc s) = .ok (.push r, rest) →
        ∃ t, step s = .next t ∧ ∀ (p : Addr) (k : Nat),
          fetchByte { t with pc := p } k =
            if p.toNat + k = s.regs[7].toNat - 1 then some (s.regs.set 7 (s.regs[7] - 1))[r.toNat]
            else if 256 ≤ p.toNat + k then none else some (s.mem.read (p.toNat + k))) ∧
      (decode (bytesAtPc s) = .ok (.call r, rest) → s.pc.toNat + 2 < 256 →
        ∃ t, step s = .next t ∧ ∀ (p : Addr) (k : Nat),
          fetchByte { t with pc := p } k =
            if p.toNat + k = s.regs[7].toNat - 1 then some (BitVec.ofNat 8 (s.pc.toNat + 2))
            else if 256 ≤ p.toNat + k then none else some (s.mem.read (p.toNat + k)))

/-! ### Faults -/

/-- R31, R232, R237, R239: the first register operand byte from 8 up, in operand order, raises RegisterFault before any
other check of the execute step; only `RUN` and the record change. The record is D10, D14; the order D11. -/
def Obligations.FirstBadRegisterOperandFaults : Prop :=
  ∀ (i : Instr) (s : State) (r : Byte), i.regOperands.find? (fun b => decide (8 ≤ b.toNat)) = some r →
    exec i s =
      .next { s with fcause := .register, fpc := s.pc, fop := (entryOf i.mnemonic).opcode, finfo := r.setWidth 9,
                     run := .faulted }

/-- R181, R182, R233, R239: the four stack instructions outside their bound, with operands that exist, raise StackFault
with R7; only `RUN` and the record change. At every value of the two constants. The record is D10, D14; that a CALL at 254
reports its stack before its return address is D11; the opcode bytes in `FOP` are general knowledge (D2, log 9). -/
def Obligations.StackBoundsFault : Prop :=
  ∀ (r : Byte) (s : State), r.toNat < 8 →
    (s.regs[7].toNat ≤ s.cfg.stackBase.toNat →
      exec (.push r) s = .next { s with fcause := .stack, fpc := s.pc, fop := 0x45, finfo := s.regs[7].setWidth 9,
                                        run := .faulted } ∧
      exec (.call r) s = .next { s with fcause := .stack, fpc := s.pc, fop := 0x50, finfo := s.regs[7].setWidth 9,
                                        run := .faulted }) ∧
    (s.cfg.spInit.toNat ≤ s.regs[7].toNat →
      exec (.pop r) s = .next { s with fcause := .stack, fpc := s.pc, fop := 0x46, finfo := s.regs[7].setWidth 9,
                                       run := .faulted } ∧
      exec .ret s = .next { s with fcause := .stack, fpc := s.pc, fop := 0x11, finfo := s.regs[7].setWidth 9,
                                   run := .faulted })

/-- R190, R231: a CALL at 254, its register and the stack being in order, raises MemoryFault(256). Decision D6; the record
is D10, D14; CALL's byte 0x50 in `FOP` is general knowledge (D2, log 9). -/
def Obligations.CallAtTopOfMemoryFaults : Prop :=
  ∀ (r : Byte) (s : State), r.toNat < 8 → s.cfg.stackBase.toNat < s.regs[7].toNat → s.pc = 254 →
    exec (.call r) s =
      .next { s with fcause := .memory, fpc := 254, fop := 0x50, finfo := 256, run := .faulted }

/-- R132, R134, R239: a fetch at 256 raises MemoryFault(256): the opcode's with `FOP` 0x00, an operand's with the opcode
byte. Decisions D5, D14. -/
def Obligations.FetchPastMemoryFaults : Prop :=
  ∀ s : State, s.run = .running → s.pins.rst = false →
    (s.pc = 256 →
      step s = .next { s with outPort := none, fcause := .memory, fpc := 256, fop := 0, finfo := 256,
                              run := .faulted }) ∧
    (∀ m : Mnemonic,
      (s.pc = 255 ∧ 1 ≤ (entryOf m).nOps ∨ s.pc = 254 ∧ (entryOf m).nOps = 2) →
      s.mem.read s.pc.toNat = (entryOf m).opcode →
        step s = .next { s with outPort := none, fcause := .memory, fpc := s.pc, fop := (entryOf m).opcode,
                                finfo := 256, run := .faulted })

/-- R106, R133, R235: an opcode byte outside the thirteen raises UnknownInstruction with the byte, at every address that
holds one, 254 and 255 included; only `RUN`, the record and the strobe change. Decisions D10, D14; ten of the thirteen bytes
are general knowledge (D2, log 9). -/
def Obligations.UnknownOpcodeFaults : Prop :=
  ∀ s : State, s.run = .running → s.pins.rst = false → s.pc.toNat < 256 →
    s.mem.read s.pc.toNat ∉
      ([0x01, 0x11, 0x45, 0x46, 0x47, 0x50, 0x54, 0x55, 0x56, 0x82, 0xA0, 0xA2, 0xA7] : List Byte) →
      step s = .next { s with outPort := none, fcause := .unknownInstruction, fpc := s.pc,
                              fop := s.mem.read s.pc.toNat, finfo := (s.mem.read s.pc.toNat).setWidth 9,
                              run := .faulted }

/-- R237, R238: a cycle that ends in FAULTED has changed nothing but `RUN` and the fault record (the strobe is over), and
`pc` = `FPC`. Decision D10. -/
def Obligations.FaultingCycleCommitsNothing : Prop :=
  ∀ s t : State, s.run = .running → s.pins.rst = false → step s = .next t → t.run = .faulted →
    t = { s with outPort := none, run := .faulted, fcause := t.fcause, fpc := s.pc, fop := t.fop, finfo := t.finfo }

/-- R171, R234: no step records UnsupportedOperation: no opcode sends the ALU another operation. Derived by the spec. -/
def Obligations.UnsupportedOperationIsUnreachable : Prop :=
  ∀ s t : State, s.fcause ≠ .unsupportedOperation → step s = .next t → t.fcause ≠ .unsupportedOperation

/-! ### Run states, reset, the host -/

/-- R130: the run-state machine, row by row. A cycle faults exactly when it leaves a cause in a record that was clear. -/
def Obligations.RunStatesFollowTheTable : Prop :=
  ∀ s t : State, step s = .next t →
    (s.pins.rst = true → t.run = .reset) ∧
    (s.pins.rst = false → s.run = .reset → t.run = .running ∧ t.pc = 0) ∧
    (s.pins.rst = false → s.run = .running →
      (t.run = .running ∨ t.run = .halted ∨ t.run = .faulted) ∧
      (t.run = .halted ↔ ∃ rest, decode (bytesAtPc s) = .ok (.hlt, rest)) ∧
      (s.fcause = .none → (t.run = .faulted ↔ t.fcause ≠ .none))) ∧
    (s.pins.rst = false → s.run = .halted → t.run = .halted) ∧
    (s.pins.rst = false → s.run = .faulted → t.run = .faulted)

/-- R140: in HALTED and FAULTED, with `rst` low, a step emits nothing and changes no register, flag, `pc`, memory cell or
record field, whatever the load port carries (the strobe is log 8). At the clock level neither state makes a memory request:
that clause is about the realisation of log 15 (DESIGN CHOICE, D19). -/
def Obligations.EndedRunHoldsItsState : Prop :=
  (∀ s : State, s.Ended → s.pins.rst = false →
    step s = .next { s with outPort := none }) ∧
  (∀ m : Micro, m.stage = .sHalt ∨ m.stage = .sFault → m.stage.granted = none ∧ m.memPort = none)

/-- R260, R141, R86: `rst` asserted in any state applies the reset values, commits nothing of a cycle in flight and keeps
memory, but for a load-port write where `RUN` is RESET already. Decisions D8, D17, D26. -/
def Obligations.ResetAppliesItsValues : Prop :=
  ∀ s : State, s.pins.rst = true →
    step s =
      .next { regs := #v[0, 0, 0, 0, 0, 0, 0, s.cfg.spInit], pc := 0, fl := .none, run := .reset, fcause := .none,
              fpc := 0, fop := 0, finfo := 0, output := [], outPort := none, pins := s.pins, cfg := s.cfg,
              mem := if s.run = .reset ∧ s.pins.loadWe = true
                then s.mem.write s.pins.loadAddr.toNat s.pins.loadData else s.mem }

/-- R262, R130: with `rst` low in RESET, `RUN` becomes RUNNING with `pc` = 0; with no load in that cycle nothing else
changes. Decision D13. -/
def Obligations.ReleaseStartsAtZero : Prop :=
  ∀ s : State, s.run = .reset → s.pins.rst = false → s.pins.loadWe = false →
    step s = .next { s with run := .running, pc := 0, outPort := none }

/-- R80: while `RUN` is not RESET the load port has no effect: with other levels on it a step gives the same state, but
for the levels themselves. Decisions D17, D18. -/
def Obligations.LoadPortIsIgnoredOutsideReset : Prop :=
  ∀ (s t : State) (we : Bool) (a d : Byte), s.run ≠ .reset → step s = .next t →
    step { s with pins := { rst := s.pins.rst, loadWe := we, loadAddr := a, loadData := d } } =
      .next { t with pins := { rst := s.pins.rst, loadWe := we, loadAddr := a, loadData := d } }

/-- R263, R87, R262: from ANY state the boot sequence ends in RUNNING at `pc` 0 with the reset values and the image
followed by zeros in memory. Decisions D8, D9. -/
def Obligations.BootRunsTheImage : Prop :=
  ∀ (s : State) (image : List Byte), image.length ≤ 256 →
    ∃ t, runInputs (bootInputs image) s = .next t ∧
      t = { State.reset with
        regs := #v[0, 0, 0, 0, 0, 0, 0, s.cfg.spInit], mem := t.mem, cfg := s.cfg } ∧
      ∀ a, a < 256 → t.mem.read a = image.getD a 0

/-- R48: no step changes the configuration, nor the pins, which are the host's (log 6). -/
def Obligations.ConfigurationIsConstant : Prop :=
  ∀ s t : State, step s = .next t → t.cfg = s.cfg ∧ t.pins = s.pins

/-- R46, R247: an instruction cycle emits at most one event: either the sequence is as before and the strobe is low, or one
byte joins its end and is the byte on the port, and then the cycle was a PRN; and every PRN of a register that exists
emits its byte so. Decision D20; the strobe is log 8. -/
def Obligations.OneOutputEventPerPrn : Prop :=
  (∀ s t : State, s.run = .running → s.pins.rst = false → step s = .next t →
    (t.output = s.output ∧ t.outPort = none) ∨
    (∃ (r : Byte) (rest : List Byte) (h : r.toNat < 8), decode (bytesAtPc s) = .ok (.prn r, rest) ∧
      t.output = s.output ++ [s.regs[r.toNat]] ∧ t.outPort = some s.regs[r.toNat])) ∧
  (∀ (s : State) (r : Byte) (rest : List Byte) (h : r.toNat < 8), s.run = .running → s.pins.rst = false →
    decode (bytesAtPc s) = .ok (.prn r, rest) →
      ∃ t, step s = .next t ∧ t.output = s.output ++ [s.regs[r.toNat]] ∧ t.outPort = some s.regs[r.toNat])

/-- R36, R40 to R44, R250: the codes of `RUN` and `FCAUSE` on the status outputs and of `FL` are the listed ones, so no two
values share a code, codes 6 and 7 of `FCAUSE` never show, `halted` and `faulted` follow `RUN`, and `fault_pc`, `fault_op`,
`fault_info` carry `FPC`, `FOP`, `FINFO`. Decisions D13, D14, D17; the flag layout is K4 (log 9). -/
def Obligations.StatusOutputsShowTheState : Prop :=
  (Flag.code .none = 0b000 ∧ Flag.code .eq = 0b001 ∧ Flag.code .gt = 0b010 ∧ Flag.code .lt = 0b100) ∧
  (∀ s : State,
    ((statusOutputs s).halted = true ↔ (statusOutputs s).runState = 0b10) ∧
    ((statusOutputs s).faulted = true ↔ (statusOutputs s).runState = 0b11) ∧
    ((statusOutputs s).runState = 0b00 ↔ s.run = .reset) ∧
    ((statusOutputs s).runState = 0b01 ↔ s.run = .running) ∧
    ((statusOutputs s).runState = 0b10 ↔ s.run = .halted) ∧
    ((statusOutputs s).runState = 0b11 ↔ s.run = .faulted) ∧
    ((statusOutputs s).halted = true ↔ s.run = .halted) ∧
    ((statusOutputs s).faulted = true ↔ s.run = .faulted) ∧
    (statusOutputs s).faultCause ≠ 6 ∧ (statusOutputs s).faultCause ≠ 7 ∧
    (statusOutputs s).faultPc = s.fpc ∧ (statusOutputs s).faultOp = s.fop ∧ (statusOutputs s).faultInfo = s.finfo ∧
    ((statusOutputs s).faultCause = 0 ↔ s.fcause = .none) ∧
    ((statusOutputs s).faultCause = 1 ↔ s.fcause = .memory) ∧
    ((statusOutputs s).faultCause = 2 ↔ s.fcause = .register) ∧
    ((statusOutputs s).faultCause = 3 ↔ s.fcause = .stack) ∧
    ((statusOutputs s).faultCause = 4 ↔ s.fcause = .unsupportedOperation) ∧
    ((statusOutputs s).faultCause = 5 ↔ s.fcause = .unknownInstruction))

/-! ### The invariant -/

/-- R260, R40, R87: the invariant holds right after reset. The state is log 2 to 6. -/
def Obligations.ResetStateIsLegal : Prop := State.reset.Inv

/-- R35, R41 to R45, R48, R143, R230, R237: every step from a legal state gives a legal state: memory canonical, `pc` at
most 256, the configuration in its constraint, the fault record clear outside FAULTED and telling a possible fault in
FAULTED (every MemoryFault at 256), RESET at its reset values, the port showing the last event. -/
def Obligations.EveryStepKeepsLegalStates : Prop :=
  ∀ s t : State, s.Inv → step s = .next t → t.Inv

/-- The same over whole runs, the host driving any levels on the pins between any two steps. -/
def Obligations.EveryRunKeepsLegalStates : Prop :=
  ∀ (inputs : List HostPins) (s : State), s.Inv → ∃ t, runInputs inputs s = .next t ∧ t.Inv

/-! ### The clock-level realisation -/

/-- R145 to R147, R275: from S_FETCH, whatever the latches hold, `cycleClocks` clock edges end one architectural step at a
cycle boundary, and before the last of them the architectural state has not changed (but the strobe is over). The
micro-sequence is D19, log 15. -/
def Obligations.MicroSequenceRealisesStep : Prop :=
  ∀ m : Micro, m.stage = .sFetch → m.core.run = .running → m.core.pins.rst = false →
    (∃ t, step m.core = .next t ∧ (Micro.clocks (cycleClocks m.core) m).core = t ∧
      (Micro.clocks (cycleClocks m.core) m).stage = t.run.boundary) ∧
    (∀ k, 0 < k → k < cycleClocks m.core →
      (Micro.clocks k m).core = { m.core with outPort := none } ∧ (Micro.clocks k m).stage.runState = .running)

/-- R146: where no cycle is in progress, and at any point with `rst` asserted, one clock edge is one architectural step.
D19, log 15. -/
def Obligations.MicroResetAndHoldAreSteps : Prop :=
  ∀ m : Micro, m.stage.runState = m.core.run → m.core.run ≠ .running ∨ m.core.pins.rst = true →
    step m.core = .next m.clock.core ∧ m.clock.stage = m.clock.core.run.boundary

/-- R76 to R80: memory changes at a clock edge exactly by the write on the memory port, if there is one. D17 to D19,
log 15. -/
def Obligations.MemoryPortCarriesEveryWrite : Prop :=
  ∀ m : Micro, m.stage.runState = m.core.run →
    m.clock.core.mem =
      match m.memPort with
      | some (.write a v) => m.core.mem.write a.toNat v
      | some (.read _) => m.core.mem
      | none => m.core.mem

/-- R72, R77, R79, R146: where a fetch state requests a byte below 256, `mem_rdata` carries that byte in the same clock and
the latch takes it at the edge, `IR` with its decoder outputs (an opcode with no decode-table entry ends the cycle instead,
and `IR` and the decoder outputs stay: log 19); where it would request 256 or
above there is no access and no read data, and the edge enters FAULTED. In S_EXEC, whatever the other latches hold, the byte
a latched POP loads and a latched RET jumps to is the byte on `mem_rdata`. D17 to D19, log 15. -/
def Obligations.ReadDataReachesLatchesAndRegisters : Prop :=
  ∀ m : Micro, m.core.pins.rst = false →
    (m.stage.granted = some .fetchUnit →
      (m.core.pc.toNat + m.stage.fetchOffset < 256 →
        ∃ b, m.memRdata = some b ∧ b = m.core.mem.read (m.core.pc.toNat + m.stage.fetchOffset) ∧
          (m.stage = .sFetch → (lookupOpcode b).isSome = true → m.clock.ir = b ∧ m.clock.dec = decoderOutputs b) ∧
          (m.stage = .sFetch → lookupOpcode b = none →
            m.clock.stage = .sFault ∧ m.clock.ir = m.ir ∧ m.clock.dec = m.dec) ∧
          (m.stage = .sOp1 → m.clock.o1 = b) ∧ (m.stage = .sOp2 → m.clock.o2 = b)) ∧
      (256 ≤ m.core.pc.toNat + m.stage.fetchOffset →
        m.memPort = none ∧ m.memRdata = none ∧ m.clock.stage = .sFault)) ∧
    (m.stage = .sExec → m.core.regs[7].toNat < m.core.cfg.spInit.toNat →
      (m.dec = some (entryOutputs (entryOf .ret)) →
        ∃ b, m.memRdata = some b ∧ b = m.core.mem.read m.core.regs[7].toNat ∧ m.clock.core.pc = b.setWidth 9) ∧
      (m.dec = some (entryOutputs (entryOf .pop)) → m.o1.toNat < 7 →
        ∃ b, m.memRdata = some b ∧ b = m.core.mem.read m.core.regs[7].toNat ∧
          ∀ j : Fin 8, j.val = m.o1.toNat → m.clock.core.reg j = b))

/-- R76, R79: the CORE sees memory through `mem_rdata` alone: another memory array that answers the clock's access with the
same read data gives the same clock edge, but for the array itself. D17 to D19, log 15. -/
def Obligations.OnlyReadDataReachesTheCore : Prop :=
  ∀ (m : Micro) (mem : Memory), (m.withMem mem).memRdata = m.memRdata →
    (m.withMem mem).clock.withMem m.clock.core.mem = m.clock

/-- R104, R145, R146: in every operand and execute state the latched decoder outputs are the decoder's for the latched opcode
byte, with the operand count that leads there: every clock edge keeps this, and it holds wherever no cycle is in progress
or one has not fetched its opcode, whatever the latches hold. D19, log 15. -/
def Obligations.DecoderLatchFollowsOpcodeLatch : Prop :=
  (∀ m : Micro, m.stage ≠ .sOp1 → m.stage ≠ .sOp2 → m.stage ≠ .sExec → m.LatchesAgree) ∧
  (∀ m : Micro, m.LatchesAgree → m.clock.LatchesAgree)
end

