-- ==== Sys2Proof/Laws/Decode.lean ====
section
/-! SUPPORT. What the decode table's lookup answers (30_encoding.md R103 to R106). -/

namespace Sys2Proof

/-- A row stands under its own mnemonic. -/
@[simp] theorem entryOf_mnemonic (m : Mnemonic) : (entryOf m).mnemonic = m := by cases m <;> rfl

/-- Looking up a row's own opcode finds that row: no row hides another. -/
@[simp] theorem lookupOpcode_opcode (m : Mnemonic) : lookupOpcode (entryOf m).opcode = some (entryOf m) := by
  cases m <;> rfl

/-- Whatever the lookup answers is the row of its mnemonic, under the opcode looked up. -/
theorem lookupOpcode_eq_some (op : Byte) (e : DecodeEntry) (h : lookupOpcode op = some e) :
    e = entryOf e.mnemonic ∧ e.opcode = op := by
  have hop : e.opcode = op := by simpa using List.find?_some h
  have hmem : e ∈ decodeTable := List.mem_of_find?_eq_some h
  refine ⟨?_, hop⟩
  simp only [decodeTable, List.mem_cons, List.not_mem_nil, or_false] at hmem
  rcases hmem with h | h | h | h | h | h | h | h | h | h | h | h | h <;> subst h <;> rfl

/-- The operand count of an instruction is the table's (R100, R104). -/
@[simp] theorem length_operands (i : Instr) : i.operands.length = (entryOf i.mnemonic).nOps := by cases i <;> rfl

/-- Building an instruction keeps its mnemonic. -/
@[simp] theorem buildInstr_mnemonic (m : Mnemonic) (o1 o2 : Byte) : (buildInstr m o1 o2).mnemonic = m := by
  cases m <;> rfl

/-- An operand count is 0, 1 or 2 (R100). -/
theorem entryOf_nOps_le (m : Mnemonic) : (entryOf m).nOps ≤ 2 := by cases m <;> decide

end Sys2Proof
end

