-- ==== Sys2Proof/Laws/Memory.lean ====
section
/-! SUPPORT. The laws of memory: a read after a write, the canonical form kept by every operation, and that canonical
memories with equal reads are equal data (20_memory.md R72 to R74). -/

namespace Sys2Proof.Machine

/-! ### Reads -/

theorem Memory.read_erase_same (m : Memory) (a : Nat) : (m.erase a).read a = Config.memFill := by
  induction m with
  | nil => rfl
  | cons c rest ih =>
    obtain ⟨b, w⟩ := c
    by_cases h : a = b
    · simpa [Memory.erase, h] using h ▸ ih
    · simp [Memory.erase, Memory.read, h, ih]

theorem Memory.read_erase_other (m : Memory) (a b : Nat) (h : b ≠ a) : (m.erase a).read b = m.read b := by
  induction m with
  | nil => rfl
  | cons c rest ih =>
    obtain ⟨x, w⟩ := c
    by_cases hx : a = x
    · have : b ≠ x := hx ▸ h
      simp [Memory.erase, Memory.read, hx, this, hx ▸ ih]
    · simp [Memory.erase, Memory.read, hx, ih]

theorem Memory.read_insert_other (m : Memory) (a b : Nat) (v : Byte) (h : b ≠ a) :
    (m.insert a v).read b = m.read b := by
  induction m with
  | nil => simp [Memory.insert, Memory.read, h]
  | cons c rest ih =>
    obtain ⟨x, w⟩ := c
    by_cases hx : a < x
    · simp [Memory.insert, Memory.read, hx, h]
    · simp [Memory.insert, Memory.read, hx, ih]

theorem Memory.read_insert_erase_same (m : Memory) (a : Nat) (v : Byte) :
    ((m.erase a).insert a v).read a = v := by
  induction m with
  | nil => simp [Memory.erase, Memory.insert, Memory.read]
  | cons c rest ih =>
    obtain ⟨x, w⟩ := c
    by_cases hx : a = x
    · simpa [Memory.erase, hx] using hx ▸ ih
    · by_cases hlt : a < x
      · simp [Memory.erase, Memory.insert, Memory.read, hx, hlt]
      · simp [Memory.erase, Memory.insert, Memory.read, hx, hlt, ih]

/-- A read after a write to the same cell gives the byte written. -/
theorem Memory.read_write_same (m : Memory) (a : Nat) (v : Byte) (h : a < 256) : (m.write a v).read a = v := by
  unfold Memory.write
  rw [if_neg (by omega)]
  split
  · next hv => rw [Memory.read_erase_same, hv]
  · exact Memory.read_insert_erase_same m a v

/-- A write leaves every other cell alone (R73, R74). -/
theorem Memory.read_write_other (m : Memory) (a b : Nat) (v : Byte) (h : b ≠ a) :
    (m.write a v).read b = m.read b := by
  unfold Memory.write
  split
  · rfl
  · split
    · exact Memory.read_erase_other m a b h
    · rw [Memory.read_insert_other _ a b v h, Memory.read_erase_other m a b h]

/-! ### The canonical form -/

theorem Memory.wfFrom_mono (m : Memory) (lo lo' : Nat) (h : lo' ≤ lo) (hm : m.wfFrom lo = true) :
    m.wfFrom lo' = true := by
  cases m with
  | nil => rfl
  | cons c rest =>
    obtain ⟨b, w⟩ := c
    simp only [Memory.wfFrom, Bool.and_eq_true, decide_eq_true_eq] at hm ⊢
    exact ⟨⟨⟨by omega, hm.1.1.2⟩, hm.1.2⟩, hm.2⟩

theorem Memory.erase_wfFrom (m : Memory) (a lo : Nat) (hm : m.wfFrom lo = true) : (m.erase a).wfFrom lo = true := by
  induction m generalizing lo with
  | nil => rfl
  | cons c rest ih =>
    obtain ⟨b, w⟩ := c
    simp only [Memory.wfFrom, Bool.and_eq_true, decide_eq_true_eq] at hm
    by_cases h : a = b
    · simpa [Memory.erase, h] using h ▸ Memory.wfFrom_mono _ (b + 1) lo (by omega) (ih _ hm.2)
    · simp only [Memory.erase, h, if_false, Memory.wfFrom, Bool.and_eq_true, decide_eq_true_eq]
      exact ⟨hm.1, ih _ hm.2⟩

/-- Every listed address of a memory canonical from `lo` is at or above `lo`, so erasing a lower one changes nothing. -/
theorem Memory.erase_below (m : Memory) (a lo : Nat) (h : a < lo) (hm : m.wfFrom lo = true) : m.erase a = m := by
  induction m generalizing lo with
  | nil => rfl
  | cons c rest ih =>
    obtain ⟨b, w⟩ := c
    simp only [Memory.wfFrom, Bool.and_eq_true, decide_eq_true_eq] at hm
    have hb : a ≠ b := by omega
    simp [Memory.erase, hb, ih (b + 1) (by omega) hm.2]

theorem Memory.insert_erase_wfFrom (m : Memory) (a lo : Nat) (v : Byte) (hlo : lo ≤ a) (ha : a < 256)
    (hv : v ≠ Config.memFill) (hm : m.wfFrom lo = true) : ((m.erase a).insert a v).wfFrom lo = true := by
  induction m generalizing lo with
  | nil => simp [Memory.erase, Memory.insert, Memory.wfFrom, hlo, ha, hv]
  | cons c rest ih =>
    obtain ⟨b, w⟩ := c
    simp only [Memory.wfFrom, Bool.and_eq_true, decide_eq_true_eq] at hm
    by_cases h : a = b
    · simpa [Memory.erase, h] using h ▸ ih lo hlo (Memory.wfFrom_mono _ (b + 1) lo (by omega) hm.2)
    · by_cases hlt : a < b
      · have hr : Memory.erase rest a = rest := Memory.erase_below rest a (b + 1) (by omega) hm.2
        simp only [Memory.erase, h, if_false, Memory.insert, hlt, if_true, hr, Memory.wfFrom, Bool.and_eq_true,
          decide_eq_true_eq]
        exact ⟨⟨⟨hlo, ha⟩, by simpa using hv⟩, ⟨⟨by omega, hm.1.1.2⟩, hm.1.2⟩, hm.2⟩
      · simp only [Memory.erase, h, if_false, Memory.insert, hlt, Memory.wfFrom, Bool.and_eq_true, decide_eq_true_eq]
        exact ⟨hm.1, ih (b + 1) (by omega) hm.2⟩

/-- A write keeps the canonical form. -/
theorem Memory.write_wf (m : Memory) (a : Nat) (v : Byte) (hm : m.wf = true) : (m.write a v).wf = true := by
  unfold Memory.write
  split
  · exact hm
  · split
    · exact Memory.erase_wfFrom m a 0 hm
    · next ha hv => exact Memory.insert_erase_wfFrom m a 0 v (by omega) (by omega) hv hm

/-- Writing bytes at ascending addresses keeps the canonical form. -/
theorem Memory.writeBytes_wf (bytes : List Byte) (m : Memory) (a : Nat) (hm : m.wf = true) :
    (m.writeBytes a bytes).wf = true := by
  induction bytes generalizing m a with
  | nil => exact hm
  | cons v rest ih => exact ih _ _ (Memory.write_wf m a v hm)

/-- A memory canonical from `lo` reads as the fill below `lo`. -/
theorem Memory.read_below (m : Memory) (a lo : Nat) (h : a < lo) (hm : m.wfFrom lo = true) :
    m.read a = Config.memFill := by
  induction m generalizing lo with
  | nil => rfl
  | cons c rest ih =>
    obtain ⟨b, w⟩ := c
    simp only [Memory.wfFrom, Bool.and_eq_true, decide_eq_true_eq] at hm
    have hb : a ≠ b := by omega
    simp [Memory.read, hb, ih (b + 1) (by omega) hm.2]

/-- There is no cell at 256 or above in a canonical memory. -/
theorem Memory.read_above (m : Memory) (a lo : Nat) (h : 256 ≤ a) (hm : m.wfFrom lo = true) :
    m.read a = Config.memFill := by
  induction m generalizing lo with
  | nil => rfl
  | cons c rest ih =>
    obtain ⟨b, w⟩ := c
    simp only [Memory.wfFrom, Bool.and_eq_true, decide_eq_true_eq] at hm
    have hb : a ≠ b := by omega
    simp [Memory.read, hb, ih (b + 1) hm.2]

theorem Memory.eq_of_read_eq_from (m m' : Memory) (lo : Nat) (hm : m.wfFrom lo = true) (hm' : m'.wfFrom lo = true)
    (h : ∀ a, lo ≤ a → m.read a = m'.read a) : m = m' := by
  induction m generalizing m' lo with
  | nil =>
    cases m' with
    | nil => rfl
    | cons c rest =>
      obtain ⟨b, w⟩ := c
      simp only [Memory.wfFrom, Bool.and_eq_true, decide_eq_true_eq, bne_iff_ne] at hm'
      exact absurd (h b hm'.1.1.1).symm (by simpa [Memory.read] using hm'.1.2)
  | cons c rest ih =>
    obtain ⟨b, w⟩ := c
    simp only [Memory.wfFrom, Bool.and_eq_true, decide_eq_true_eq, bne_iff_ne] at hm
    cases m' with
    | nil => exact absurd (h b hm.1.1.1) (by simpa [Memory.read] using hm.1.2)
    | cons c' rest' =>
      obtain ⟨b', w'⟩ := c'
      simp only [Memory.wfFrom, Bool.and_eq_true, decide_eq_true_eq, bne_iff_ne] at hm'
      have hbb : b = b' := by
        rcases Nat.lt_trichotomy b b' with hlt | heq | hgt
        · have h1 := h b hm.1.1.1
          rw [Memory.read_below ((b', w') :: rest') b b' hlt
            (by simpa [Memory.wfFrom] using ⟨⟨hm'.1.1.2, hm'.1.2⟩, hm'.2⟩)] at h1
          exact absurd h1 (by simpa [Memory.read] using hm.1.2)
        · exact heq
        · have h1 := h b' hm'.1.1.1
          rw [Memory.read_below ((b, w) :: rest) b' b hgt
            (by simpa [Memory.wfFrom] using ⟨⟨hm.1.1.2, hm.1.2⟩, hm.2⟩)] at h1
          exact absurd h1.symm (by simpa [Memory.read] using hm'.1.2)
      subst hbb
      have hww : w = w' := by simpa [Memory.read] using h b hm.1.1.1
      subst hww
      have hrest : rest = rest' := by
        refine ih rest' (b + 1) hm.2 hm'.2 (fun a ha => ?_)
        have hab : a ≠ b := by omega
        simpa [Memory.read, hab] using h a (by omega)
      rw [hrest]

/-- Canonical memories with equal reads are equal lists: equal memories are equal data. -/
theorem Memory.eq_of_read_eq (m m' : Memory) (hm : m.wf = true) (hm' : m'.wf = true)
    (h : ∀ a, m.read a = m'.read a) : m = m' :=
  Memory.eq_of_read_eq_from m m' 0 hm hm' (fun a _ => h a)

end Sys2Proof.Machine
end

