-- ==== Sys2Proof/Laws/State.lean ====
section
/-! SUPPORT. One lemma per field per update of the state, true by rfl, so that no proof unfolds a record update. -/

namespace Sys2Proof.Machine

/-! ### setReg -/

@[simp] theorem State.setReg_regs (s : State) (i : Fin 8) (v : Byte) : (s.setReg i v).regs = s.regs.set i v := rfl
@[simp] theorem State.setReg_pc (s : State) (i : Fin 8) (v : Byte) : (s.setReg i v).pc = s.pc := rfl
@[simp] theorem State.setReg_fl (s : State) (i : Fin 8) (v : Byte) : (s.setReg i v).fl = s.fl := rfl
@[simp] theorem State.setReg_run (s : State) (i : Fin 8) (v : Byte) : (s.setReg i v).run = s.run := rfl
@[simp] theorem State.setReg_fcause (s : State) (i : Fin 8) (v : Byte) : (s.setReg i v).fcause = s.fcause := rfl
@[simp] theorem State.setReg_fpc (s : State) (i : Fin 8) (v : Byte) : (s.setReg i v).fpc = s.fpc := rfl
@[simp] theorem State.setReg_fop (s : State) (i : Fin 8) (v : Byte) : (s.setReg i v).fop = s.fop := rfl
@[simp] theorem State.setReg_finfo (s : State) (i : Fin 8) (v : Byte) : (s.setReg i v).finfo = s.finfo := rfl
@[simp] theorem State.setReg_mem (s : State) (i : Fin 8) (v : Byte) : (s.setReg i v).mem = s.mem := rfl
@[simp] theorem State.setReg_output (s : State) (i : Fin 8) (v : Byte) : (s.setReg i v).output = s.output := rfl
@[simp] theorem State.setReg_outPort (s : State) (i : Fin 8) (v : Byte) : (s.setReg i v).outPort = s.outPort := rfl
@[simp] theorem State.setReg_pins (s : State) (i : Fin 8) (v : Byte) : (s.setReg i v).pins = s.pins := rfl
@[simp] theorem State.setReg_cfg (s : State) (i : Fin 8) (v : Byte) : (s.setReg i v).cfg = s.cfg := rfl

/-! ### emit -/

@[simp] theorem State.emit_regs (s : State) (v : Byte) : (s.emit v).regs = s.regs := rfl
@[simp] theorem State.emit_pc (s : State) (v : Byte) : (s.emit v).pc = s.pc := rfl
@[simp] theorem State.emit_fl (s : State) (v : Byte) : (s.emit v).fl = s.fl := rfl
@[simp] theorem State.emit_run (s : State) (v : Byte) : (s.emit v).run = s.run := rfl
@[simp] theorem State.emit_fcause (s : State) (v : Byte) : (s.emit v).fcause = s.fcause := rfl
@[simp] theorem State.emit_fpc (s : State) (v : Byte) : (s.emit v).fpc = s.fpc := rfl
@[simp] theorem State.emit_fop (s : State) (v : Byte) : (s.emit v).fop = s.fop := rfl
@[simp] theorem State.emit_finfo (s : State) (v : Byte) : (s.emit v).finfo = s.finfo := rfl
@[simp] theorem State.emit_mem (s : State) (v : Byte) : (s.emit v).mem = s.mem := rfl
@[simp] theorem State.emit_output (s : State) (v : Byte) : (s.emit v).output = s.output ++ [v] := rfl
@[simp] theorem State.emit_outPort (s : State) (v : Byte) : (s.emit v).outPort = some v := rfl
@[simp] theorem State.emit_pins (s : State) (v : Byte) : (s.emit v).pins = s.pins := rfl
@[simp] theorem State.emit_cfg (s : State) (v : Byte) : (s.emit v).cfg = s.cfg := rfl

/-! ### clearPort -/

@[simp] theorem State.clearPort_regs (s : State) : (s.clearPort).regs = s.regs := rfl
@[simp] theorem State.clearPort_pc (s : State) : (s.clearPort).pc = s.pc := rfl
@[simp] theorem State.clearPort_fl (s : State) : (s.clearPort).fl = s.fl := rfl
@[simp] theorem State.clearPort_run (s : State) : (s.clearPort).run = s.run := rfl
@[simp] theorem State.clearPort_fcause (s : State) : (s.clearPort).fcause = s.fcause := rfl
@[simp] theorem State.clearPort_fpc (s : State) : (s.clearPort).fpc = s.fpc := rfl
@[simp] theorem State.clearPort_fop (s : State) : (s.clearPort).fop = s.fop := rfl
@[simp] theorem State.clearPort_finfo (s : State) : (s.clearPort).finfo = s.finfo := rfl
@[simp] theorem State.clearPort_mem (s : State) : (s.clearPort).mem = s.mem := rfl
@[simp] theorem State.clearPort_output (s : State) : (s.clearPort).output = s.output := rfl
@[simp] theorem State.clearPort_outPort (s : State) : (s.clearPort).outPort = none := rfl
@[simp] theorem State.clearPort_pins (s : State) : (s.clearPort).pins = s.pins := rfl
@[simp] theorem State.clearPort_cfg (s : State) : (s.clearPort).cfg = s.cfg := rfl

/-! ### advance -/

@[simp] theorem State.advance_regs (s : State) (n : Nat) : (s.advance n).regs = s.regs := rfl
@[simp] theorem State.advance_pc (s : State) (n : Nat) : (s.advance n).pc = s.pc + BitVec.ofNat 9 (1 + n) := rfl
@[simp] theorem State.advance_fl (s : State) (n : Nat) : (s.advance n).fl = s.fl := rfl
@[simp] theorem State.advance_run (s : State) (n : Nat) : (s.advance n).run = s.run := rfl
@[simp] theorem State.advance_fcause (s : State) (n : Nat) : (s.advance n).fcause = s.fcause := rfl
@[simp] theorem State.advance_fpc (s : State) (n : Nat) : (s.advance n).fpc = s.fpc := rfl
@[simp] theorem State.advance_fop (s : State) (n : Nat) : (s.advance n).fop = s.fop := rfl
@[simp] theorem State.advance_finfo (s : State) (n : Nat) : (s.advance n).finfo = s.finfo := rfl
@[simp] theorem State.advance_mem (s : State) (n : Nat) : (s.advance n).mem = s.mem := rfl
@[simp] theorem State.advance_output (s : State) (n : Nat) : (s.advance n).output = s.output := rfl
@[simp] theorem State.advance_outPort (s : State) (n : Nat) : (s.advance n).outPort = s.outPort := rfl
@[simp] theorem State.advance_pins (s : State) (n : Nat) : (s.advance n).pins = s.pins := rfl
@[simp] theorem State.advance_cfg (s : State) (n : Nat) : (s.advance n).cfg = s.cfg := rfl

/-! ### jump -/

@[simp] theorem State.jump_regs (s : State) (t : Byte) : (s.jump t).regs = s.regs := rfl
@[simp] theorem State.jump_pc (s : State) (t : Byte) : (s.jump t).pc = zext9 t := rfl
@[simp] theorem State.jump_fl (s : State) (t : Byte) : (s.jump t).fl = s.fl := rfl
@[simp] theorem State.jump_run (s : State) (t : Byte) : (s.jump t).run = s.run := rfl
@[simp] theorem State.jump_fcause (s : State) (t : Byte) : (s.jump t).fcause = s.fcause := rfl
@[simp] theorem State.jump_fpc (s : State) (t : Byte) : (s.jump t).fpc = s.fpc := rfl
@[simp] theorem State.jump_fop (s : State) (t : Byte) : (s.jump t).fop = s.fop := rfl
@[simp] theorem State.jump_finfo (s : State) (t : Byte) : (s.jump t).finfo = s.finfo := rfl
@[simp] theorem State.jump_mem (s : State) (t : Byte) : (s.jump t).mem = s.mem := rfl
@[simp] theorem State.jump_output (s : State) (t : Byte) : (s.jump t).output = s.output := rfl
@[simp] theorem State.jump_outPort (s : State) (t : Byte) : (s.jump t).outPort = s.outPort := rfl
@[simp] theorem State.jump_pins (s : State) (t : Byte) : (s.jump t).pins = s.pins := rfl
@[simp] theorem State.jump_cfg (s : State) (t : Byte) : (s.jump t).cfg = s.cfg := rfl

/-! ### faultEntry -/

@[simp] theorem faultEntry_regs (op : Byte) (r : Raised) (s : State) : (faultEntry op r s).regs = s.regs := rfl
@[simp] theorem faultEntry_pc (op : Byte) (r : Raised) (s : State) : (faultEntry op r s).pc = s.pc := rfl
@[simp] theorem faultEntry_fl (op : Byte) (r : Raised) (s : State) : (faultEntry op r s).fl = s.fl := rfl
@[simp] theorem faultEntry_run (op : Byte) (r : Raised) (s : State) : (faultEntry op r s).run = .faulted := rfl
@[simp] theorem faultEntry_fcause (op : Byte) (r : Raised) (s : State) : (faultEntry op r s).fcause = r.cause := rfl
@[simp] theorem faultEntry_fpc (op : Byte) (r : Raised) (s : State) : (faultEntry op r s).fpc = s.pc := rfl
@[simp] theorem faultEntry_fop (op : Byte) (r : Raised) (s : State) : (faultEntry op r s).fop = op := rfl
@[simp] theorem faultEntry_finfo (op : Byte) (r : Raised) (s : State) : (faultEntry op r s).finfo = r.info := rfl
@[simp] theorem faultEntry_mem (op : Byte) (r : Raised) (s : State) : (faultEntry op r s).mem = s.mem := rfl
@[simp] theorem faultEntry_output (op : Byte) (r : Raised) (s : State) : (faultEntry op r s).output = s.output := rfl
@[simp] theorem faultEntry_outPort (op : Byte) (r : Raised) (s : State) : (faultEntry op r s).outPort = s.outPort := rfl
@[simp] theorem faultEntry_pins (op : Byte) (r : Raised) (s : State) : (faultEntry op r s).pins = s.pins := rfl
@[simp] theorem faultEntry_cfg (op : Byte) (r : Raised) (s : State) : (faultEntry op r s).cfg = s.cfg := rfl

/-! ### applyReset -/

@[simp] theorem State.applyReset_regs (s : State) : (s.applyReset).regs = #v[0, 0, 0, 0, 0, 0, 0, s.cfg.spInit] := rfl
@[simp] theorem State.applyReset_pc (s : State) : (s.applyReset).pc = 0 := rfl
@[simp] theorem State.applyReset_fl (s : State) : (s.applyReset).fl = .none := rfl
@[simp] theorem State.applyReset_run (s : State) : (s.applyReset).run = .reset := rfl
@[simp] theorem State.applyReset_fcause (s : State) : (s.applyReset).fcause = .none := rfl
@[simp] theorem State.applyReset_fpc (s : State) : (s.applyReset).fpc = 0 := rfl
@[simp] theorem State.applyReset_fop (s : State) : (s.applyReset).fop = 0 := rfl
@[simp] theorem State.applyReset_finfo (s : State) : (s.applyReset).finfo = 0 := rfl
@[simp] theorem State.applyReset_mem (s : State) : (s.applyReset).mem = s.mem := rfl
@[simp] theorem State.applyReset_output (s : State) : (s.applyReset).output = [] := rfl
@[simp] theorem State.applyReset_outPort (s : State) : (s.applyReset).outPort = none := rfl
@[simp] theorem State.applyReset_pins (s : State) : (s.applyReset).pins = s.pins := rfl
@[simp] theorem State.applyReset_cfg (s : State) : (s.applyReset).cfg = s.cfg := rfl

/-! ### release -/

@[simp] theorem State.release_regs (s : State) : (s.release).regs = s.regs := rfl
@[simp] theorem State.release_pc (s : State) : (s.release).pc = 0 := rfl
@[simp] theorem State.release_fl (s : State) : (s.release).fl = s.fl := rfl
@[simp] theorem State.release_run (s : State) : (s.release).run = .running := rfl
@[simp] theorem State.release_fcause (s : State) : (s.release).fcause = s.fcause := rfl
@[simp] theorem State.release_fpc (s : State) : (s.release).fpc = s.fpc := rfl
@[simp] theorem State.release_fop (s : State) : (s.release).fop = s.fop := rfl
@[simp] theorem State.release_finfo (s : State) : (s.release).finfo = s.finfo := rfl
@[simp] theorem State.release_mem (s : State) : (s.release).mem = s.mem := rfl
@[simp] theorem State.release_output (s : State) : (s.release).output = s.output := rfl
@[simp] theorem State.release_outPort (s : State) : (s.release).outPort = none := rfl
@[simp] theorem State.release_pins (s : State) : (s.release).pins = s.pins := rfl
@[simp] theorem State.release_cfg (s : State) : (s.release).cfg = s.cfg := rfl

/-! ### drive -/

@[simp] theorem State.drive_regs (p : HostPins) (s : State) : (s.drive p).regs = s.regs := rfl
@[simp] theorem State.drive_pc (p : HostPins) (s : State) : (s.drive p).pc = s.pc := rfl
@[simp] theorem State.drive_fl (p : HostPins) (s : State) : (s.drive p).fl = s.fl := rfl
@[simp] theorem State.drive_run (p : HostPins) (s : State) : (s.drive p).run = s.run := rfl
@[simp] theorem State.drive_fcause (p : HostPins) (s : State) : (s.drive p).fcause = s.fcause := rfl
@[simp] theorem State.drive_fpc (p : HostPins) (s : State) : (s.drive p).fpc = s.fpc := rfl
@[simp] theorem State.drive_fop (p : HostPins) (s : State) : (s.drive p).fop = s.fop := rfl
@[simp] theorem State.drive_finfo (p : HostPins) (s : State) : (s.drive p).finfo = s.finfo := rfl
@[simp] theorem State.drive_mem (p : HostPins) (s : State) : (s.drive p).mem = s.mem := rfl
@[simp] theorem State.drive_output (p : HostPins) (s : State) : (s.drive p).output = s.output := rfl
@[simp] theorem State.drive_outPort (p : HostPins) (s : State) : (s.drive p).outPort = s.outPort := rfl
@[simp] theorem State.drive_pins (p : HostPins) (s : State) : (s.drive p).pins = p := rfl
@[simp] theorem State.drive_cfg (p : HostPins) (s : State) : (s.drive p).cfg = s.cfg := rfl

/-! ### Reading a register -/

/-- A register read after a register write (R31, R32). -/
theorem State.reg_setReg (s : State) (i j : Fin 8) (v : Byte) :
    (s.setReg i v).reg j = if i = j then v else s.reg j := by
  simp [State.reg, State.setReg, Vector.getElem_set, Fin.ext_iff]

@[simp] theorem State.reg_setReg_same (s : State) (i : Fin 8) (v : Byte) : (s.setReg i v).reg i = v := by
  simp [State.reg_setReg]

theorem State.reg_setReg_other (s : State) (i j : Fin 8) (v : Byte) (h : i ≠ j) : (s.setReg i v).reg j = s.reg j := by
  simp [State.reg_setReg, h]

/-- A state's registers are told by their eight reads. -/
theorem State.regs_ext (s t : State) (h : ∀ i : Fin 8, s.reg i = t.reg i) : s.regs = t.regs := by
  apply Vector.ext
  intro i hi
  exact h ⟨i, hi⟩

@[simp] theorem State.emit_reg (s : State) (v : Byte) (i : Fin 8) : (s.emit v).reg i = s.reg i := rfl
@[simp] theorem State.clearPort_reg (s : State) (i : Fin 8) : (s.clearPort).reg i = s.reg i := rfl
@[simp] theorem State.advance_reg (s : State) (n : Nat) (i : Fin 8) : (s.advance n).reg i = s.reg i := rfl
@[simp] theorem State.jump_reg (s : State) (t : Byte) (i : Fin 8) : (s.jump t).reg i = s.reg i := rfl
@[simp] theorem faultEntry_reg (op : Byte) (r : Raised) (s : State) (i : Fin 8) : (faultEntry op r s).reg i = s.reg i := rfl
@[simp] theorem State.release_reg (s : State) (i : Fin 8) : (s.release).reg i = s.reg i := rfl
@[simp] theorem State.drive_reg (p : HostPins) (s : State) (i : Fin 8) : (s.drive p).reg i = s.reg i := rfl

end Sys2Proof.Machine
end

