-- ==== Sys2Proof/Laws/Ops.lean ====
section
/-! SUPPORT. One lemma per shared operation, saying once everything it can answer; proofs cite these and do not unfold
the operations. -/

namespace Sys2Proof.Machine

/-! ### The arbiter -/

theorem memRead_of_lt (s : State) (a : Nat) (h : a < 256) : memRead s a = .ok (s.mem.read a) :=
  if_neg (by omega)

theorem memRead_of_le (s : State) (a : Nat) (h : 256 ≤ a) : memRead s a = .error (memoryFault a) := if_pos h

theorem memWrite_of_lt (s : State) (a : Nat) (v : Byte) (h : a < 256) :
    memWrite s a v = .ok { s with mem := s.mem.write a v } := if_neg (by omega)

theorem memWrite_of_le (s : State) (a : Nat) (v : Byte) (h : 256 ≤ a) : memWrite s a v = .error (memoryFault a) :=
  if_pos h

/-- A byte is always an address inside memory. -/
theorem byte_lt_256 (v : Byte) : v.toNat < 256 := v.isLt

@[simp] theorem memRead_byte (s : State) (a : Byte) : memRead s a.toNat = .ok (s.mem.read a.toNat) :=
  memRead_of_lt s _ a.isLt

@[simp] theorem memWrite_byte (s : State) (a v : Byte) :
    memWrite s a.toNat v = .ok { s with mem := s.mem.write a.toNat v } := memWrite_of_lt s _ v a.isLt

/-- The fetch unit reads the cell, or nothing past the last one. -/
theorem fetchByte_eq (s : State) (k : Nat) :
    fetchByte s k = if s.pc.toNat + k < 256 then some (s.mem.read (s.pc.toNat + k)) else none := by
  unfold fetchByte
  split <;> split <;> first | rfl | omega

@[simp] theorem fetchByte_clearPort (s : State) (k : Nat) : fetchByte s.clearPort k = fetchByte s k := rfl

/-! ### Values in nine bits -/

@[simp] theorem zext9_toNat (v : Byte) : (zext9 v).toNat = v.toNat := by
  have := v.isLt
  simp [zext9]
  omega

/-- The decrement of a stack pointer above 0 does not wrap (R181). -/
theorem byte_sub_one_toNat (v : Byte) (h : 0 < v.toNat) : (v - 1).toNat = v.toNat - 1 := by bv_omega

/-- The increment of a stack pointer below 255 does not wrap (R182). -/
theorem byte_add_one_toNat (v : Byte) (h : v.toNat < 255) : (v + 1).toNat = v.toNat + 1 := by bv_omega

/-- A target byte never sets `pc[8]` (R35). -/
theorem zext9_lt (v : Byte) : (zext9 v).toNat < 256 := by
  rw [zext9_toNat]
  exact v.isLt

/-- The advance is exact while it stays inside nine bits (R136). -/
theorem State.advance_pc_toNat (s : State) (n : Nat) (h : s.pc.toNat + (1 + n) < 512) :
    (s.advance n).pc.toNat = s.pc.toNat + (1 + n) := by
  simp [State.advance]
  omega

/-! ### Register operands -/

theorem checkReg_of_lt (r : Byte) (h : r.toNat < 8) : checkReg r = .ok ⟨r.toNat, h⟩ := dif_pos h

theorem checkReg_of_le (r : Byte) (h : 8 ≤ r.toNat) : checkReg r = .error ⟨.register, zext9 r⟩ :=
  dif_neg (by omega)

/-- Everything CheckReg answers. -/
theorem checkReg_cases (r : Byte) :
    (∃ h : r.toNat < 8, checkReg r = .ok ⟨r.toNat, h⟩) ∨ (8 ≤ r.toNat ∧ checkReg r = .error ⟨.register, zext9 r⟩) := by
  by_cases h : r.toNat < 8
  · exact .inl ⟨h, checkReg_of_lt r h⟩
  · exact .inr ⟨by omega, checkReg_of_le r (by omega)⟩

/-! ### The stack's bounds and CALL's return address -/

/-- Everything the push bound answers (R181). -/
theorem pushBound_cases (s : State) :
    (s.cfg.stackBase.toNat < (s.reg 7).toNat ∧ pushBound s = .ok (s.reg 7)) ∨
      ((s.reg 7).toNat ≤ s.cfg.stackBase.toNat ∧ pushBound s = .error (stackFault (s.reg 7))) := by
  unfold pushBound spIndex
  split
  · next h => exact .inr ⟨h, rfl⟩
  · next h => exact .inl ⟨by omega, rfl⟩

/-- Everything the pop bound answers (R182). -/
theorem popBound_cases (s : State) :
    ((s.reg 7).toNat < s.cfg.spInit.toNat ∧ popBound s = .ok (s.reg 7)) ∨
      (s.cfg.spInit.toNat ≤ (s.reg 7).toNat ∧ popBound s = .error (stackFault (s.reg 7))) := by
  unfold popBound spIndex
  split
  · next h => exact .inr ⟨h, rfl⟩
  · next h => exact .inl ⟨by omega, rfl⟩

/-- Everything the return address computation answers (R190). -/
theorem returnAddress_cases (s : State) :
    (s.pc.toNat < 254 ∧ returnAddress s = .ok (BitVec.ofNat 8 (s.pc.toNat + 2))) ∨
      (254 ≤ s.pc.toNat ∧ returnAddress s = .error (memoryFault (s.pc.toNat + 2))) := by
  unfold returnAddress
  split
  · next h => exact .inr ⟨by omega, rfl⟩
  · next h => exact .inl ⟨by omega, rfl⟩

/-! ### The ALU -/

/-- The ALU on two register operands that exist (R170): the destination takes the result, or the guard raises. -/
theorem aluApply_of_lt (op : BitVec 4) (rA rB : Byte) (s : State) (ha : rA.toNat < 8) (hb : rB.toNat < 8) :
    aluApply op rA rB s =
      match aluResult op (s.reg ⟨rA.toNat, ha⟩) (s.reg ⟨rB.toNat, hb⟩) with
      | .ok v => .ok (s.setReg ⟨rA.toNat, ha⟩ v)
      | .error e => .error e := by
  simp only [aluApply, checkReg_of_lt rA ha, checkReg_of_lt rB hb, bind, Except.bind]
  cases aluResult op (s.reg ⟨rA.toNat, ha⟩) (s.reg ⟨rB.toNat, hb⟩) <;> rfl

/-- The ALU on a destination index that names no register. -/
theorem aluApply_of_le_left (op : BitVec 4) (rA rB : Byte) (s : State) (ha : 8 ≤ rA.toNat) :
    aluApply op rA rB s = .error ⟨.register, zext9 rA⟩ := by
  simp only [aluApply, checkReg_of_le rA ha, bind, Except.bind]

/-- The ALU on a source index that names no register. -/
theorem aluApply_of_le_right (op : BitVec 4) (rA rB : Byte) (s : State) (ha : rA.toNat < 8) (hb : 8 ≤ rB.toNat) :
    aluApply op rA rB s = .error ⟨.register, zext9 rB⟩ := by
  simp only [aluApply, checkReg_of_lt rA ha, checkReg_of_le rB hb, bind, Except.bind]

@[simp] theorem aluResult_add (a b : Byte) : aluResult aluOpAdd a b = .ok (a + b) := rfl

@[simp] theorem aluResult_mul (a b : Byte) : aluResult aluOpMul a b = .ok (a * b) := rfl

/-! ### The end of a cycle -/

@[simp] theorem finish_error (m : Mnemonic) (s : State) (r : Raised) :
    finish m s (.error r) = .next (faultEntry (entryOf m).opcode r s) := rfl

@[simp] theorem finish_jump (m : Mnemonic) (s t : State) : finish m s (.ok (t, true)) = .next t := rfl

@[simp] theorem finish_advance (m : Mnemonic) (s t : State) :
    finish m s (.ok (t, false)) = .next (t.advance (entryOf m).nOps) := rfl

/-- Everything the end of a cycle answers (R131, R137, R237). -/
theorem finish_cases (m : Mnemonic) (s s' : State) (result : RuleResult) (h : finish m s result = .next s') :
    (∃ r, result = .error r ∧ s' = faultEntry (entryOf m).opcode r s) ∨
      (∃ t, result = .ok (t, true) ∧ s' = t) ∨
      (∃ t, result = .ok (t, false) ∧ s' = t.advance (entryOf m).nOps) := by
  match result with
  | .error r => exact .inl ⟨r, rfl, by simpa using h.symm⟩
  | .ok (t, true) => exact .inr (.inl ⟨t, rfl, by simpa using h.symm⟩)
  | .ok (t, false) => exact .inr (.inr ⟨t, rfl, by simpa using h.symm⟩)

/-- A cycle always ends in a next state. -/
theorem finish_next (m : Mnemonic) (s : State) (result : RuleResult) : ∃ s', finish m s result = .next s' := by
  match result with
  | .error r => exact ⟨_, rfl⟩
  | .ok (t, true) => exact ⟨_, rfl⟩
  | .ok (t, false) => exact ⟨_, rfl⟩

/-! ### The load port -/

/-- Everything the load port does (R80). -/
theorem State.hostLoad_cases (s : State) :
    (s.run = .reset ∧ s.pins.loadWe = true ∧
        s.hostLoad = { s with mem := s.mem.write s.pins.loadAddr.toNat s.pins.loadData }) ∨
      (¬(s.run = .reset ∧ s.pins.loadWe = true) ∧ s.hostLoad = s) := by
  unfold State.hostLoad
  split
  · next h => exact .inl ⟨h.1, h.2, rfl⟩
  · next h => exact .inr ⟨h, rfl⟩

/-- The memory operations of the arbiter and the load port keep the canonical form. -/
theorem memWrite_wf (s t : State) (a : Nat) (v : Byte) (hs : s.mem.wf = true) (h : memWrite s a v = .ok t) :
    t.mem.wf = true := by
  unfold memWrite at h
  split at h
  · cases h
  · cases h
    exact Memory.write_wf _ _ _ hs

theorem State.hostLoad_wf (s : State) (hs : s.mem.wf = true) : s.hostLoad.mem.wf = true := by
  rcases s.hostLoad_cases with ⟨-, -, h⟩ | ⟨-, h⟩ <;> rw [h]
  · exact Memory.write_wf _ _ _ hs
  · exact hs

end Sys2Proof.Machine
end

