-- ==== Sys2Proof/Laws/Micro.lean ====
section
/-! SUPPORT. What the memory port does (20_memory.md R76 to R79): the fetch unit's read data, and the one lemma that ties
the execute unit's access to the instruction's meaning. -/

namespace Sys2Proof.Machine

/-! ### The decoder outputs -/

/-- The decoder on a row's own byte gives the row's outputs. -/
@[simp] theorem decoderOutputs_opcode (m : Mnemonic) :
    decoderOutputs (entryOf m).opcode = some (entryOutputs (entryOf m)) := by
  simp [decoderOutputs]

/-- `valid` = 0 exactly where the table has no entry. -/
@[simp] theorem decoderOutputs_eq_none (op : Byte) : decoderOutputs op = none ↔ lookupOpcode op = none := by
  simp [decoderOutputs]

/-- Every output of the decoder is a row's. -/
theorem decoderOutputs_eq_some (op : Byte) (d : DecoderOutputs) (h : decoderOutputs op = some d) :
    ∃ m, op = (entryOf m).opcode ∧ d = entryOutputs (entryOf m) := by
  obtain ⟨e, he, rfl⟩ := Option.map_eq_some_iff.mp h
  obtain ⟨hrow, hop⟩ := lookupOpcode_eq_some op e he
  exact ⟨e.mnemonic, by rw [← hrow, hop], by rw [← hrow]⟩

@[simp] theorem entryOutputs_nOps (m : Mnemonic) : (entryOutputs (entryOf m)).nOps = (entryOf m).nOps := rfl

@[simp] theorem entryOutputs_opSel (m : Mnemonic) : (entryOutputs (entryOf m)).opSel = m := entryOf_mnemonic m

/-! ### The array's answer and its edge -/

@[simp] theorem arrayRdata_none (mem : Memory) : arrayRdata mem none = none := rfl

@[simp] theorem arrayRdata_read (mem : Memory) (a : Byte) : arrayRdata mem (some (.read a)) = some (mem.read a.toNat) := rfl

@[simp] theorem arrayRdata_write (mem : Memory) (a v : Byte) : arrayRdata mem (some (.write a v)) = none := rfl

@[simp] theorem arrayAtEdge_none (mem : Memory) : arrayAtEdge mem none = mem := rfl

@[simp] theorem arrayAtEdge_read (mem : Memory) (a : Byte) : arrayAtEdge mem (some (.read a)) = mem := rfl

@[simp] theorem arrayAtEdge_write (mem : Memory) (a v : Byte) :
    arrayAtEdge mem (some (.write a v)) = mem.write a.toNat v := rfl

/-- The view of a read holds the byte on `mem_rdata` at the address read. -/
@[simp] theorem read_readView (a v : Byte) : (readView (some (.read a)) (some v)).read a.toNat = v :=
  Memory.read_write_same [] a.toNat v a.isLt

/-- The fetch unit's read data is the byte the fetch reads, and there is none where the arbiter issues no access. -/
theorem arrayRdata_fetchAccess (s : State) (k : Nat) : arrayRdata s.mem (fetchAccess s k) = fetchByte s k := by
  unfold fetchAccess fetchByte
  split
  · rfl
  · next h => simp [Nat.mod_eq_of_lt (Nat.lt_of_not_le h)]

/-- A fetch access leaves the array as it is. -/
@[simp] theorem arrayAtEdge_fetchAccess (mem : Memory) (s : State) (k : Nat) :
    arrayAtEdge mem (fetchAccess s k) = mem := by
  unfold fetchAccess
  split <;> rfl

/-- The fetch unit's read data while no reset is asserted. -/
theorem Micro.memRdata_of_fetch (m : Micro) (hg : m.stage.granted = some .fetchUnit) (hr : m.core.pins.rst = false) :
    m.memRdata = fetchByte m.core m.stage.fetchOffset := by
  rw [← arrayRdata_fetchAccess]
  simp [Micro.memRdata, Micro.memPort, hg, hr]

/-- The port's access does not depend on what the array holds. -/
@[simp] theorem Micro.memPort_withMem (m : Micro) (mem : Memory) : (m.withMem mem).memPort = m.memPort := rfl

/-! ### The execute unit -/

/-- Executing an instruction on what `mem_rdata` shows, and giving the array the port's write, is executing it on the
whole of memory (R76, R79, R146). -/
theorem exec_through_port (i : Instr) (s : State) :
    ∃ t, exec i { s with mem := readView (stackAccess i s) (arrayRdata s.mem (stackAccess i s)) } = .next t ∧
      exec i s = .next { t with mem := arrayAtEdge s.mem (stackAccess i s) } := by
  have hpush : ∀ m, pushBound { s with mem := m } = pushBound s := fun _ => rfl
  have hpop : ∀ m, popBound { s with mem := m } = popBound s := fun _ => rfl
  have hret : ∀ m, returnAddress { s with mem := m } = returnAddress s := fun _ => rfl
  cases i with
  | hlt => exact ⟨_, rfl, rfl⟩
  | ret =>
    simp only [exec, execRet, ruleRet, stackAccess, hpop]
    rcases popBound_cases s with ⟨-, h⟩ | ⟨-, h⟩ <;> rw [h]
    · simp only [bind, Except.bind, memRead_byte, finish_jump]
      refine ⟨_, rfl, ?_⟩
      simp [State.setReg, State.reg, State.jump]
    · exact ⟨_, rfl, rfl⟩
  | push r =>
    simp only [exec, execPush, rulePush, stackAccess, hpush]
    rcases checkReg_cases r with ⟨_, hc⟩ | ⟨_, hc⟩ <;> rcases pushBound_cases s with ⟨-, h⟩ | ⟨-, h⟩ <;> rw [hc, h]
    · simp only [bind, Except.bind, memWrite_byte, finish_advance]
      refine ⟨_, rfl, ?_⟩
      simp [State.setReg, State.reg, State.advance]
    all_goals exact ⟨_, rfl, rfl⟩
  | pop r =>
    simp only [exec, execPop, rulePop, stackAccess, hpop]
    rcases checkReg_cases r with ⟨_, hc⟩ | ⟨_, hc⟩ <;> rcases popBound_cases s with ⟨-, h⟩ | ⟨-, h⟩ <;> rw [hc, h]
    · simp only [bind, Except.bind, memRead_byte, finish_advance]
      refine ⟨_, rfl, ?_⟩
      simp [State.setReg, State.reg, State.advance]
    all_goals exact ⟨_, rfl, rfl⟩
  | call r =>
    simp only [exec, execCall, ruleCall, stackAccess, hpush, hret]
    rcases checkReg_cases r with ⟨_, hc⟩ | ⟨_, hc⟩ <;> rcases pushBound_cases s with ⟨-, h⟩ | ⟨-, h⟩ <;>
      rcases returnAddress_cases s with ⟨-, ha⟩ | ⟨-, ha⟩ <;> rw [hc, h, ha]
    · simp only [bind, Except.bind, memWrite_byte, finish_jump]
      refine ⟨_, rfl, ?_⟩
      simp [State.setReg, State.reg, State.jump]
    all_goals exact ⟨_, rfl, rfl⟩
  | prn r =>
    simp only [exec, execPrn, rulePrn, stackAccess]
    rcases checkReg_cases r with ⟨_, hc⟩ | ⟨_, hc⟩ <;> rw [hc] <;> exact ⟨_, rfl, rfl⟩
  | jmp r =>
    simp only [exec, execJmp, ruleJumpIf, stackAccess]
    rcases checkReg_cases r with ⟨_, hc⟩ | ⟨_, hc⟩ <;> rw [hc] <;> exact ⟨_, rfl, rfl⟩
  | jeq r =>
    simp only [exec, execJeq, ruleJumpIf, stackAccess]
    rcases checkReg_cases r with ⟨_, hc⟩ | ⟨_, hc⟩ <;> rw [hc] <;> cases s.fl.jeqTaken <;> exact ⟨_, rfl, rfl⟩
  | jne r =>
    simp only [exec, execJne, ruleJumpIf, stackAccess]
    rcases checkReg_cases r with ⟨_, hc⟩ | ⟨_, hc⟩ <;> rw [hc] <;> cases s.fl.jneTaken <;> exact ⟨_, rfl, rfl⟩
  | ldi r imm =>
    simp only [exec, execLdi, ruleLdi, stackAccess]
    rcases checkReg_cases r with ⟨_, hc⟩ | ⟨_, hc⟩ <;> rw [hc] <;> exact ⟨_, rfl, rfl⟩
  | add rA rB =>
    simp only [exec, execAdd, ruleAdd, aluApply, stackAccess]
    rcases checkReg_cases rA with ⟨_, ha⟩ | ⟨_, ha⟩ <;> rcases checkReg_cases rB with ⟨_, hb⟩ | ⟨_, hb⟩ <;>
      rw [ha, hb] <;> exact ⟨_, rfl, rfl⟩
  | mul rA rB =>
    simp only [exec, execMul, ruleMul, aluApply, stackAccess]
    rcases checkReg_cases rA with ⟨_, ha⟩ | ⟨_, ha⟩ <;> rcases checkReg_cases rB with ⟨_, hb⟩ | ⟨_, hb⟩ <;>
      rw [ha, hb] <;> exact ⟨_, rfl, rfl⟩
  | cmp rA rB =>
    simp only [exec, execCmp, ruleCmp, stackAccess]
    rcases checkReg_cases rA with ⟨_, ha⟩ | ⟨_, ha⟩ <;> rcases checkReg_cases rB with ⟨_, hb⟩ | ⟨_, hb⟩ <;>
      rw [ha, hb] <;> exact ⟨_, rfl, rfl⟩

end Sys2Proof.Machine
end

