-- ==== Sys2Proof/Laws/PerInstr.lean ====
section
/-! SUPPORT. A family of statements made instruction by instruction: the encoding's opcode byte is the table's and the
length of the encoding is known from it alone (30_encoding.md R100, R107). -/

namespace Sys2Proof.Laws.EncodedLength

/-- The first encoded byte finds a row whose operand count tells the encoded length, which is 1, 2 or 3. -/
def Statement (i : Instr) : Prop :=
  (encode i).length = i.length ∧ i.length ≤ 3 ∧
    ∃ e, (encode i).head?.bind lookupOpcode = some e ∧ (encode i).length = 1 + e.nOps

theorem hlt : Statement .hlt := ⟨rfl, by decide, _, rfl, rfl⟩
theorem ret : Statement .ret := ⟨rfl, by decide, _, rfl, rfl⟩
theorem push (r : Byte) : Statement (.push r) := ⟨rfl, Nat.le_succ 2, _, rfl, rfl⟩
theorem pop (r : Byte) : Statement (.pop r) := ⟨rfl, Nat.le_succ 2, _, rfl, rfl⟩
theorem prn (r : Byte) : Statement (.prn r) := ⟨rfl, Nat.le_succ 2, _, rfl, rfl⟩
theorem call (r : Byte) : Statement (.call r) := ⟨rfl, Nat.le_succ 2, _, rfl, rfl⟩
theorem jmp (r : Byte) : Statement (.jmp r) := ⟨rfl, Nat.le_succ 2, _, rfl, rfl⟩
theorem jeq (r : Byte) : Statement (.jeq r) := ⟨rfl, Nat.le_succ 2, _, rfl, rfl⟩
theorem jne (r : Byte) : Statement (.jne r) := ⟨rfl, Nat.le_succ 2, _, rfl, rfl⟩
theorem ldi (r imm : Byte) : Statement (.ldi r imm) := ⟨rfl, Nat.le_refl 3, _, rfl, rfl⟩
theorem add (rA rB : Byte) : Statement (.add rA rB) := ⟨rfl, Nat.le_refl 3, _, rfl, rfl⟩
theorem mul (rA rB : Byte) : Statement (.mul rA rB) := ⟨rfl, Nat.le_refl 3, _, rfl, rfl⟩
theorem cmp (rA rB : Byte) : Statement (.cmp rA rB) := ⟨rfl, Nat.le_refl 3, _, rfl, rfl⟩

end Sys2Proof.Laws.EncodedLength
end

