-- ==== Sys2Proof/Tests/Slice0.lean ====
section
/-! SUPPORT. Tests: ill-formed instructions the check refuses, words written out from 30_encoding.md, vectors of
95_test_vectors.md (named V<n>, P<n>, E<n> in the comments) run for one step, and a witness for the hypotheses of every
statement. -/

namespace Sys2Proof.Tests

open Sys2Proof Sys2Proof.Machine

/-! ### Helpers -/

/-- The next state, where there is one. -/
def nextOf (o : Host.Outcome State Fault Refusal) : Option State :=
  match o with
  | .next t => some t
  | .fault _ => none
  | .refused _ => none

/-- A state as at reset with bytes at `p` and `pc` = p. -/
def at_ (p : Nat) (bytes : List Byte) : State :=
  { State.reset with pc := BitVec.ofNat 9 p, mem := Memory.writeBytes [] p bytes }

/-- One step, seen through a function of the state after it. -/
def after {α : Type} (s : State) (f : State → α) : Option α := (nextOf (step s)).map f

/-- The fault record and `RUN`. -/
def record (s : State) : RunState × Nat × Nat × Nat × Nat :=
  (s.run, s.fcause.code.toNat, s.fpc.toNat, s.fop.toNat, s.finfo.toNat)

/-! ### WellFormed refuses each ill-formed operand -/

theorem test_ill_formed_push : WellFormed (.push 8) = false := by decide
theorem test_ill_formed_pop : WellFormed (.pop 8) = false := by decide
theorem test_ill_formed_prn : WellFormed (.prn 8) = false := by decide
theorem test_ill_formed_call : WellFormed (.call 8) = false := by decide
theorem test_ill_formed_jmp : WellFormed (.jmp 8) = false := by decide
theorem test_ill_formed_jeq : WellFormed (.jeq 8) = false := by decide
theorem test_ill_formed_jne : WellFormed (.jne 8) = false := by decide
theorem test_ill_formed_ldi : WellFormed (.ldi 255 0) = false := by decide
theorem test_ill_formed_add_first : WellFormed (.add 8 7) = false := by decide
theorem test_ill_formed_add_second : WellFormed (.add 7 8) = false := by decide
theorem test_ill_formed_mul_first : WellFormed (.mul 8 7) = false := by decide
theorem test_ill_formed_mul_second : WellFormed (.mul 7 8) = false := by decide
theorem test_ill_formed_cmp_first : WellFormed (.cmp 8 7) = false := by decide
theorem test_ill_formed_cmp_second : WellFormed (.cmp 7 8) = false := by decide
theorem test_well_formed : WellFormed (.add 7 0) = true ∧ WellFormed (.ldi 7 255) = true := by decide

/-! ### Words written out bit by bit from R101 and R103, first byte lowest -/

theorem test_word_hlt : decodeTableWord 8 0b00000001 = some (.hlt) := by decide
theorem test_word_ret : decodeTableWord 8 0b00010001 = some (.ret) := by decide
theorem test_word_push : decodeTableWord 16 0b00000111_01000101 = some (.push 7) := by decide
theorem test_word_pop : decodeTableWord 16 0b00000001_01000110 = some (.pop 1) := by decide
theorem test_word_prn : decodeTableWord 16 0b00000000_01000111 = some (.prn 0) := by decide
theorem test_word_call : decodeTableWord 16 0b00000001_01010000 = some (.call 1) := by decide
theorem test_word_jmp : decodeTableWord 16 0b00000011_01010100 = some (.jmp 3) := by decide
theorem test_word_jeq : decodeTableWord 16 0b11111111_01010101 = some (.jeq 255) := by decide
theorem test_word_jne : decodeTableWord 16 0b00001001_01010110 = some (.jne 9) := by decide
theorem test_word_ldi : decodeTableWord 24 0b00001000_00000000_10000010 = some (.ldi 0 8) := by decide
theorem test_word_add : decodeTableWord 24 0b00000010_00000001_10100000 = some (.add 1 2) := by decide
theorem test_word_mul : decodeTableWord 24 0b00000100_00000011_10100010 = some (.mul 3 4) := by decide
theorem test_word_cmp : decodeTableWord 24 0b00000110_00000101_10100111 = some (.cmp 5 6) := by decide
theorem test_word_unknown : decodeTableWord 8 0x83 = none ∧ decodeTableWord 8 0x00 = none := by decide
theorem test_decode_error_names : decode [] = .error .noOpcode ∧ decode [0x83] = .error (.unknownOpcode 0x83) ∧ decode [0x82, 0] = .error (.missingOperand 0x82 2) := ⟨rfl, rfl, rfl⟩
theorem test_table_opcodes_differ : (decodeTable.map (fun e => e.opcode)).Nodup := by decide

/-! ### Vectors, one step each -/

/-- V1. -/
theorem test_ldi_immediate : after (at_ 0 [0x82, 0x03, 0xFF]) (fun t => (t.reg 3, t.pc.toNat)) = some (0xFF, 3) := by decide
/-- V5. -/
theorem test_ldi_operand_past_memory : after (at_ 254 [0x82, 0x00]) (fun t => (record t, t.reg 0)) = some ((.faulted, 1, 254, 0x82, 256), 0) := by decide
/-- V8. -/
theorem test_prn_event : after { at_ 0 [0x47, 0x02] with regs := #v[0, 0, 255, 0, 0, 0, 0, 244] } (fun t => (t.output, t.outPort, t.pc.toNat)) = some ([255], some 255, 2) := by decide
/-- V9. -/
theorem test_prn_bad_register : after (at_ 0 [0x47, 0x09]) (fun t => (record t, t.output)) = some ((.faulted, 2, 0, 0x47, 9), []) := by decide
/-- V10. -/
theorem test_add_wraps : after { at_ 0 [0xA0, 0x00, 0x01] with regs := #v[200, 100, 0, 0, 0, 0, 0, 244] } (fun t => (t.reg 0, t.reg 1, t.pc.toNat)) = some (44, 100, 3) := by decide
/-- V14. -/
theorem test_add_first_operand_reported : after (at_ 0 [0xA0, 0x09, 0x08]) (fun t => record t) = some (.faulted, 2, 0, 0xA0, 9) := by decide
/-- V17. -/
theorem test_mul_low_byte : after { at_ 0 [0xA2, 0x00, 0x01] with regs := #v[255, 255, 0, 0, 0, 0, 0, 244] } (fun t => t.reg 0) = some 1 := by decide
/-- V19. -/
theorem test_mul_square : after { at_ 0 [0xA2, 0x00, 0x00] with regs := #v[7, 0, 0, 0, 0, 0, 0, 244] } (fun t => (t.reg 0, t.fl)) = some (49, .none) := by decide
/-- V24. -/
theorem test_push_sp_after_decrement : after (at_ 0 [0x45, 0x07]) (fun t => (t.reg 7, t.mem.read 0xF3)) = some (0xF3, 0xF3) := by decide
/-- V25. -/
theorem test_push_no_wrap_at_zero : after { at_ 0 [0x45, 0x00] with regs := #v[0, 0, 0, 0, 0, 0, 0, 0] } (fun t => record t) = some (.faulted, 3, 0, 0x45, 0) := by decide
/-- V30. -/
theorem test_pop_into_sp : after { at_ 0 [0x46, 0x07] with regs := #v[0, 0, 0, 0, 0, 0, 0, 243], mem := Memory.write (at_ 0 [0x46, 0x07]).mem 243 255 } (fun t => (t.reg 7, t.mem.read 0xF3)) = some (0x00, 0xFF) := by decide
/-- V28. -/
theorem test_pop_empty : after (at_ 0 [0x46, 0x01]) (fun t => (record t, t.reg 7)) = some ((.faulted, 3, 0, 0x46, 0xF4), 0xF4) := by decide
/-- V33. -/
theorem test_call_pushes : after { at_ 3 [0x50, 0x01] with regs := #v[0, 8, 0, 0, 0, 0, 0, 244] } (fun t => (t.reg 7, t.mem.read 0xF3, t.pc.toNat)) = some (0xF3, 5, 8) := by decide
/-- V34. -/
theorem test_call_at_254 : after { at_ 254 [0x50, 0x01] with regs := #v[0, 8, 0, 0, 0, 0, 0, 244] } (fun t => (record t, t.reg 7, t.mem.read 0xF3)) = some ((.faulted, 1, 254, 0x50, 256), 0xF4, 0) := by decide
/-- V39. -/
theorem test_ret_pops : after { at_ 11 [0x11] with regs := #v[0, 0, 0, 0, 0, 0, 0, 243], mem := Memory.write (at_ 11 [0x11]).mem 243 5 } (fun t => (t.pc.toNat, t.reg 7)) = some (5, 0xF4) := by decide
/-- V41. -/
theorem test_ret_at_255 : after { at_ 255 [0x11] with regs := #v[0, 0, 0, 0, 0, 0, 0, 243], mem := Memory.write (at_ 255 [0x11]).mem 243 32 } (fun t => (t.pc.toNat, t.reg 7)) = some (0x20, 0xF4) := by decide
/-- V43. -/
theorem test_cmp_unsigned : after { at_ 0 [0xA7, 0x00, 0x01] with regs := #v[255, 1, 0, 0, 0, 0, 0, 244] } (fun t => (t.fl, t.pc.toNat)) = some (.gt, 3) := by decide
/-- V46. -/
theorem test_cmp_overwrites : after { at_ 0 [0xA7, 0x00, 0x01] with regs := #v[4, 4, 0, 0, 0, 0, 0, 244], fl := .gt } (fun t => t.fl) = some .eq := by decide
/-- V49. -/
theorem test_jmp : after { at_ 32 [0x54, 0x03] with regs := #v[0, 0, 0, 12, 0, 0, 0, 244] } (fun t => t.pc.toNat) = some 12 := by decide
/-- V50. -/
theorem test_jmp_bad_register : after (at_ 32 [0x54, 0x08]) (fun t => record t) = some (.faulted, 2, 0x20, 0x54, 8) := by decide
/-- V54. -/
theorem test_jeq_not_taken_under_none : after { at_ 32 [0x55, 0x03] with regs := #v[0, 0, 0, 12, 0, 0, 0, 244] } (fun t => t.pc.toNat) = some 0x22 := by decide
/-- V55. -/
theorem test_jeq_checks_register_when_not_taken : after { at_ 32 [0x55, 0x09] with fl := .gt } (fun t => record t) = some (.faulted, 2, 0x20, 0x55, 9) := by decide
/-- V58. -/
theorem test_jne_taken_under_none : after { at_ 32 [0x56, 0x03] with regs := #v[0, 0, 0, 12, 0, 0, 0, 244] } (fun t => t.pc.toNat) = some 12 := by decide
/-- V59. -/
theorem test_jne_not_taken_under_eq : after { at_ 32 [0x56, 0x03] with regs := #v[0, 0, 0, 12, 0, 0, 0, 244], fl := .eq } (fun t => t.pc.toNat) = some 0x22 := by decide
/-- V61. -/
theorem test_hlt_advances : after (at_ 5 [0x01]) (fun t => (t.run, t.pc.toNat)) = some (.halted, 6) := by decide
/-- V62. -/
theorem test_hlt_at_255 : after (at_ 255 [0x01]) (fun t => (t.run, t.pc.toNat)) = some (.halted, 256) := by decide
/-- V63. -/
theorem test_unknown_zero : after (at_ 5 [0x00]) (fun t => record t) = some (.faulted, 5, 5, 0, 0) := by decide
/-- V65. -/
theorem test_unknown_before_operand_fetch : after (at_ 254 [0x83]) (fun t => record t) = some (.faulted, 5, 254, 0x83, 0x83) := by decide
/-- V66. -/
theorem test_fetch_at_256 : after (at_ 256 []) (fun t => record t) = some (.faulted, 1, 256, 0, 256) := by decide
/-- P10, the fetch of the pushed byte. -/
theorem test_self_modified_byte_is_fetched : after { at_ 243 [0x01] with regs := #v[0, 0, 0, 0, 0, 0, 0, 243] } (fun t => (t.run, t.pc.toNat)) = some (.halted, 0xF4) := by decide
/-- A machine that has faulted, with `rst` asserted and a byte in memory. -/
def faultedUnderReset : State :=
  { at_ 9 [] with
    run := .faulted, fcause := .stack, fl := .lt, regs := #v[9, 0, 0, 0, 0, 0, 0, 1],
    mem := [(0x40, 0x55)], pins := HostPins.assertReset }
/-- V67. -/
theorem test_reset_values :
    after faultedUnderReset (fun t => (record t, t.reg 0, t.reg 7)) = some ((.reset, 0, 0, 0, 0), 0, 0xF4) := by decide
/-- V67. -/
theorem test_reset_keeps_memory :
    after faultedUnderReset (fun t => (t.pc, t.fl, t.mem.read 0x40)) = some (0, .none, 0x55) := by decide
/-- V68. -/
theorem test_release_runs :
    after { State.reset with run := .reset } (fun t => (t.run, t.pc)) = some (.running, 0) := by decide
/-- R80: a load in RESET writes, outside RESET it does not. -/
theorem test_load_port :
    after { State.reset with run := .reset, pins := HostPins.load 0x40 7 } (fun t => t.mem.read 0x40) = some 7 ∧
    after { State.reset with pins := HostPins.load 0x40 7 } (fun t => t.mem.read 0x40) = some 0 := by decide
/-- A write of the fill takes the cell out of the list; the list stays sorted. -/
theorem test_memory_canonical :
    Memory.write (Memory.write (Memory.write [] 9 1) 3 2) 9 0 = [(3, 2)] ∧
    Memory.write (Memory.write [] 9 1) 3 2 = [(3, 2), (9, 1)] := by decide
/-- E1, by the assembler of R110. -/
theorem test_assemble_first_example :
    assemble ['L','D','I',' ','R','0',',','8',';',' ','P','R','N',' ','R','0',';',' ','H','L','T'] =
      some [0b10000010, 0, 8, 0b01000111, 0, 0b00000001] := by decide
/-- R110: hexadecimal and binary immediates; a mnemonic that is none of the thirteen is refused (R112). -/
theorem test_assembler_numbers :
    parseInstr ['L','D','I',' ','R','1',',','0','x','f','F'] = some (.ldi 1 255) ∧
    parseInstr ['L','D','I',' ','R','1',',','0','b','1','0'] = some (.ldi 1 2) ∧
    parseInstr ['L','D','I',' ','R','1',',','2','5','6'] = none ∧
    parseInstr ['N','O','P'] = none := by decide
/-- R275: 2, 3 and 4 clocks. -/
theorem test_clock_counts :
    cycleClocks (at_ 0 [0x01]) = 2 ∧ cycleClocks (at_ 0 [0x47, 0]) = 3 ∧ cycleClocks (at_ 0 [0x82, 0, 8]) = 4 := by
  decide
/-- R250. -/
theorem test_status_outputs :
    statusOutputs { State.reset with run := .halted } =
      { runState := 0b10, halted := true, faulted := false, faultCause := 0, faultPc := 0, faultOp := 0,
        faultInfo := 0 } := by decide
/-- The fixed names together: the word of `RET` stored at reset runs as the first instruction (V40). -/
theorem test_first_instruction_after_reset :
    after (State.reset.withFetchWord 8 0x11) record = some (.faulted, 3, 0, 0x11, 0xF4) := by decide

/-! ### Witnesses: states and operands that meet each statement's hypotheses -/

/-- Registers with R7 as given. -/
def withSp (sp : Byte) (s : State) : State := { s with regs := #v[1, 0xFF, 0xFF, 3, 4, 5, 6, sp] }

/-- A state at an address with R7 as given. -/
def spAt (p : Nat) (sp : Byte) : State := withSp sp (at_ p [])

theorem witness_AssemblerReadsItsOwnText : WellFormed (.cmp 7 0) = true ∧ WellFormed (.ldi 7 255) = true := by decide

theorem witness_StepRunsDecodedInstruction :
    (at_ 253 [0x82, 7, 255]).run = .running ∧ (at_ 253 [0x82, 7, 255]).pins.rst = false ∧
      decode (bytesAtPc (at_ 253 [0x82, 7, 255])) = .ok (.ldi 7 255, []) := ⟨rfl, rfl, rfl⟩

theorem witness_StoredTableWordRunsNext :
    (at_ 253 []).pc.toNat + 3 ≤ 256 ∧ decodeTableWord 24 0xFF0782 = some (.ldi 7 255) := by decide

/-- Every clause: an instruction that fits below 256 and does not fault, at its highest address where that matters. -/
theorem witness_ProgramCounterAdvancesOrJumps :
    ∀ x ∈ ([(.ldi 7 1, 253), (.prn 7, 254), (.add 7 0, 253), (.mul 0 7, 253), (.push 7, 254), (.pop 0, 254),
        (.cmp 0 7, 253), (.hlt, 255), (.call 7, 253), (.ret, 255), (.jmp 0, 254), (.jeq 7, 254), (.jne 7, 254)] :
        List (Instr × Nat)),
      (spAt x.2 0xF3).run ≠ .faulted ∧ (spAt x.2 0xF3).pc.toNat + x.1.length ≤ 256 ∧
        (nextOf (exec x.1 (spAt x.2 0xF3))).any (fun t => t.run != .faulted) = true := by decide

theorem witness_ProgramCounterAdvancesOrJumps_equal :
    (nextOf (exec (.jeq 0) { spAt 254 0xF3 with fl := .eq })).any (fun t => t.run != .faulted) = true ∧
    (nextOf (exec (.jne 0) { spAt 254 0xF3 with fl := .eq })).any (fun t => t.run != .faulted) = true := by decide

/-- LDI, PRN, ADD, MUL, CMP, JMP, JEQ, JNE: the last register that exists, and the first byte that names none. -/
theorem witness_register_operand : (7 : Byte).toNat < 8 ∧ (0 : Byte).toNat < 8 ∧ 8 ≤ (8 : Byte).toNat := by decide

/-- The end of memory: an LDI at 253, 254 and 255. -/
theorem witness_LdiLoadsImmediate :
    ((at_ 253 [0x82, 7, 255]).run = .running ∧ (at_ 253 [0x82, 7, 255]).pins.rst = false ∧
      (at_ 253 [0x82, 7, 255]).mem.read 253 = 0x82 ∧ (at_ 253 [0x82, 7, 255]).mem.read 254 = 7 ∧
      (at_ 253 [0x82, 7, 255]).mem.read 255 = 255) ∧
    ((at_ 254 [0x82, 7]).pc = 254 ∧ (at_ 254 [0x82, 7]).mem.read 254 = 0x82) ∧
    ((at_ 255 [0x82]).pc = 255 ∧ (at_ 255 [0x82]).mem.read 255 = 0x82) := by decide

theorem witness_AluGuardRaises : (1 : BitVec 4) ≠ 0x0 ∧ (1 : BitVec 4) ≠ 0x2 ∧ (7 : Byte).toNat < 8 := by decide

theorem witness_PushStoresBelowStackPointer :
    (7 : Byte).toNat < 8 ∧ (spAt 0 0xE5).cfg.stackBase.toNat < (spAt 0 0xE5).regs[7].toNat := by decide

theorem witness_PopLoadsTopThenIncrements :
    (7 : Byte).toNat < 8 ∧ (spAt 0 0xF3).regs[7].toNat < (spAt 0 0xF3).cfg.spInit.toNat := by decide

theorem witness_CallPushesReturnAddress :
    (7 : Byte).toNat < 8 ∧ (spAt 253 0xE5).cfg.stackBase.toNat < (spAt 253 0xE5).regs[7].toNat ∧
      (spAt 253 0xE5).pc.toNat + 2 < 256 := by decide

theorem witness_RetPopsReturnAddress : (spAt 0 0xF3).regs[7].toNat < (spAt 0 0xF3).cfg.spInit.toNat := by decide

theorem witness_PushThenPopRestoresRegisters :
    (7 : Byte).toNat < 8 ∧ (spAt 0 0xF4).cfg.stackBase.toNat < (spAt 0 0xF4).regs[7].toNat ∧
      (spAt 0 0xF4).regs[7].toNat ≤ (spAt 0 0xF4).cfg.spInit.toNat := by decide

theorem witness_CallThenRetResumes :
    (7 : Byte).toNat < 8 ∧ (spAt 253 0xF4).cfg.stackBase.toNat < (spAt 253 0xF4).regs[7].toNat ∧
      (spAt 253 0xF4).regs[7].toNat ≤ (spAt 253 0xF4).cfg.spInit.toNat ∧ (spAt 253 0xF4).pc.toNat + 2 < 256 := by decide

theorem witness_StackHoldsItsCapacity :
    (spAt 0 0xF4).run = .running ∧ (0 : Byte).toNat < 8 ∧ (spAt 0 0xF4).cfg.valid = true ∧
      (spAt 0 0xF4).regs[7] = (spAt 0 0xF4).cfg.spInit ∧
      (repeatExec 16 (.push 0) (spAt 0 0xF4)).isSome = true ∧ (repeatExec 17 (.push 0) (spAt 0 0xF4)).isSome = false := by
  decide

/-- Equal, greater by one at the top of the range, less by one. -/
theorem witness_CmpOrdersUnsigned :
    (spAt 0 0xFE).regs[1].toNat = (spAt 0 0xFE).regs[2].toNat ∧
    (spAt 0 0xFE).regs[7].toNat < (spAt 0 0xFE).regs[1].toNat ∧
    (spAt 0 2).regs[0].toNat < (spAt 0 2).regs[7].toNat := by decide

/-- Each flag value is a value a state may hold. -/
theorem witness_ConditionalJumpsAreOpposite :
    ({ State.reset with fl := .eq } : State).fl = .eq ∧ ({ State.reset with fl := .gt } : State).fl = .gt ∧
    ({ State.reset with fl := .lt } : State).fl = .lt ∧ State.reset.fl = .none := ⟨rfl, rfl, rfl, rfl⟩

theorem witness_HltAdvancesAndHalts : (at_ 255 []).pins.rst = false := rfl

theorem witness_OnlyJeqAndJneReadFlag :
    (Instr.cmp 0 7).mnemonic ≠ .jeq ∧ (Instr.cmp 0 7).mnemonic ≠ .jne ∧
      (∃ t, exec (.cmp 0 7) (spAt 0 1) = .next t) ∧
      ∃ t, exec (.cmp 0 7) { spAt 0 1 with fl := .gt } = .next t :=
  ⟨by decide, by decide, ⟨_, rfl⟩, ⟨_, rfl⟩⟩

theorem witness_OnlyCmpWritesFlag :
    ((Instr.add 7 0).mnemonic ≠ .cmp ∧ ∃ t, exec (.add 7 0) (spAt 0 255) = .next t) ∧
      ∃ t, exec (.cmp 7 0) (spAt 0 255) = .next t := ⟨⟨by decide, _, rfl⟩, _, rfl⟩

/-- Every clause: a register the instruction may not write, each mnemonic condition, a cycle without fault. -/
theorem witness_EveryInstructionKeepsItsFrame :
    (∃ t, exec (.ldi 7 0) (spAt 0 1) = .next t ∧ t.run ≠ .faulted) ∧ mayWriteReg (.ldi 7 0) 6 = false ∧
      (Instr.ldi 7 0).mnemonic ≠ .cmp ∧ (Instr.ldi 7 0).mnemonic ≠ .push ∧ (Instr.ldi 7 0).mnemonic ≠ .call ∧
      (Instr.ldi 7 0).mnemonic ≠ .prn :=
  ⟨⟨_, rfl, by decide⟩, by decide, by decide, by decide, by decide, by decide⟩

theorem witness_StackStoresTouchOneCell :
    (∃ t, exec (.push 7) (spAt 0 0xE5) = .next t) ∧
      ∃ t, exec (.call 7) (spAt 0 0xE4) = .next t ∧ (spAt 0 0xE4).run ≠ .faulted ∧ t.run = .faulted :=
  ⟨⟨_, rfl⟩, _, rfl, by decide, by decide⟩

theorem witness_OnlyStackInstructionsTouchMemory :
    (∃ t, exec (.jne 7) (spAt 0 0xF3) = .next t) ∧ (∃ t, exec (.pop 7) (spAt 0 0xF3) = .next t) ∧
      ∃ t, exec .ret (spAt 0 0xF3) = .next t := ⟨⟨_, rfl⟩, ⟨_, rfl⟩, _, rfl⟩

theorem witness_ArbiterReadsAndWritesOneCell : (255 : Nat) < 256 ∧ (256 : Nat) ≤ 256 := by decide

/-- P10's state at its PUSH. -/
def pushHaltState : State :=
  { at_ 0xF1 [0x45, 2] with regs := #v[0, 0xF1, 1, 0, 0, 0, 0, 0xF4] }

theorem witness_PushedHaltIsFetchedNext :
    (2 : Byte).toNat < 8 ∧ pushHaltState.run = .running ∧ pushHaltState.pins.rst = false ∧
      pushHaltState.cfg.stackBase.toNat < pushHaltState.regs[7].toNat ∧
      pushHaltState.pc.toNat + 3 = pushHaltState.regs[7].toNat ∧
      pushHaltState.mem.read pushHaltState.pc.toNat = 0x45 ∧ pushHaltState.mem.read (pushHaltState.pc.toNat + 1) = 2 ∧
      (2 : Byte).toNat ≠ 7 ∧ pushHaltState.regs[2] = 0x01 := by decide

/-- A PUSH of R7 whose cell is the byte after it, and a CALL at the highest address it completes at. -/
theorem witness_FetchSeesStackWrites :
    ((7 : Byte).toNat < 8 ∧ (at_ 0xF1 [0x45, 7]).run = .running ∧ (at_ 0xF1 [0x45, 7]).pins.rst = false ∧
      (at_ 0xF1 [0x45, 7]).cfg.stackBase.toNat < (at_ 0xF1 [0x45, 7]).regs[7].toNat ∧
      ∃ rest, decode (bytesAtPc (at_ 0xF1 [0x45, 7])) = .ok (.push 7, rest)) ∧
    (at_ 253 [0x50, 7]).cfg.stackBase.toNat < (at_ 253 [0x50, 7]).regs[7].toNat ∧
      (at_ 253 [0x50, 7]).pc.toNat + 2 < 256 ∧ decode (bytesAtPc (at_ 253 [0x50, 7])) = .ok (.call 7, [0]) :=
  ⟨⟨by decide, rfl, rfl, by decide, _, rfl⟩, by decide, by decide, rfl⟩

theorem witness_FirstBadRegisterOperandFaults :
    (Instr.add 7 8).regOperands.find? (fun b => decide (8 ≤ b.toNat)) = some 8 ∧
    (Instr.add 8 255).regOperands.find? (fun b => decide (8 ≤ b.toNat)) = some 8 ∧
    (Instr.jeq 255).regOperands.find? (fun b => decide (8 ≤ b.toNat)) = some 255 := by decide

/-- Both bounds at equality and at the ends of the byte. -/
theorem witness_StackBoundsFault :
    (7 : Byte).toNat < 8 ∧
    (spAt 0 0xE4).regs[7].toNat ≤ (spAt 0 0xE4).cfg.stackBase.toNat ∧
    (spAt 0 0x00).regs[7].toNat ≤ (spAt 0 0x00).cfg.stackBase.toNat ∧
    (spAt 0 0xF4).cfg.spInit.toNat ≤ (spAt 0 0xF4).regs[7].toNat ∧
    (spAt 0 0xFF).cfg.spInit.toNat ≤ (spAt 0 0xFF).regs[7].toNat := by decide

theorem witness_CallAtTopOfMemoryFaults :
    (7 : Byte).toNat < 8 ∧ (spAt 254 0xE5).cfg.stackBase.toNat < (spAt 254 0xE5).regs[7].toNat ∧
      (spAt 254 0xE5).pc = 254 := by decide

theorem witness_FetchPastMemoryFaults :
    ((at_ 256 []).pc = 256 ∧ (at_ 256 []).run = .running ∧ (at_ 256 []).pins.rst = false) ∧
    ((at_ 255 [0x45]).pc = 255 ∧ 1 ≤ (entryOf .push).nOps ∧
      (at_ 255 [0x45]).mem.read (at_ 255 [0x45]).pc.toNat = (entryOf .push).opcode) ∧
    ((at_ 254 [0x82, 7]).pc = 254 ∧ (entryOf .ldi).nOps = 2 ∧
      (at_ 254 [0x82, 7]).mem.read (at_ 254 [0x82, 7]).pc.toNat = (entryOf .ldi).opcode) := by decide

theorem witness_UnknownOpcodeFaults :
    (at_ 255 [0x83]).run = .running ∧ (at_ 255 [0x83]).pins.rst = false ∧ (at_ 255 [0x83]).pc.toNat < 256 ∧
      (at_ 255 [0x83]).mem.read (at_ 255 [0x83]).pc.toNat ∉
        ([0x01, 0x11, 0x45, 0x46, 0x47, 0x50, 0x54, 0x55, 0x56, 0x82, 0xA0, 0xA2, 0xA7] : List Byte) := by decide

theorem witness_FaultingCycleCommitsNothing :
    ∃ t, step (at_ 255 [0x83]) = .next t ∧ t.run = .faulted := ⟨_, rfl, rfl⟩

theorem witness_UnsupportedOperationIsUnreachable :
    (at_ 255 [0x83]).fcause ≠ .unsupportedOperation ∧ ∃ t, step (at_ 255 [0x83]) = .next t := ⟨by decide, _, rfl⟩

/-- Every row of the run-state table. -/
theorem witness_RunStatesFollowTheTable :
    (∃ t, step { State.reset with pins := HostPins.assertReset } = .next t) ∧
    (∃ t, step { State.reset with run := .reset } = .next t) ∧
    (∃ t, step (at_ 255 [0x01]) = .next t ∧ t.run = .halted ∧ (at_ 255 [0x01]).fcause = .none) ∧
    (∃ t, step (at_ 255 [0x83]) = .next t ∧ t.run = .faulted ∧ (at_ 255 [0x83]).fcause = .none) ∧
    (∃ t, step (at_ 253 [0x82, 0, 1]) = .next t ∧ t.run = .running) ∧
    (∃ t, step { State.reset with run := .halted } = .next t) ∧
    (∃ t, step { State.reset with run := .faulted } = .next t) :=
  ⟨⟨_, rfl⟩, ⟨_, rfl⟩, ⟨_, rfl, rfl, rfl⟩, ⟨_, rfl, rfl, rfl⟩, ⟨_, rfl, rfl⟩, ⟨_, rfl⟩, ⟨_, rfl⟩⟩

theorem witness_EndedRunHoldsItsState :
    (({ State.reset with run := .halted } : State).Ended ∧ State.reset.pins.rst = false) ∧
      ({ State.reset with run := .faulted } : State).Ended ∧
      (RunState.boundary .halted = .sHalt ∧ RunState.boundary .faulted = .sFault) := by decide

theorem witness_ResetAppliesItsValues :
    ({ State.reset with pins := HostPins.assertReset } : State).pins.rst = true ∧
      ({ State.reset with run := .reset, pins := HostPins.load 255 1 } : State).pins.rst = true := by decide

theorem witness_ReleaseStartsAtZero :
    ({ at_ 9 [] with run := .reset } : State).run = .reset ∧ (at_ 9 []).pins.rst = false ∧
      (at_ 9 []).pins.loadWe = false := by decide

theorem witness_LoadPortIsIgnoredOutsideReset :
    (at_ 255 [0x01]).run ≠ .reset ∧ ∃ t, step (at_ 255 [0x01]) = .next t := ⟨by decide, _, rfl⟩

theorem witness_BootRunsTheImage : (List.replicate 256 (1 : Byte)).length ≤ 256 ∧ ([] : List Byte).length ≤ 256 :=
  ⟨List.length_replicate.le, Nat.zero_le _⟩

theorem witness_ConfigurationIsConstant : ∃ t, step (at_ 255 [0x01]) = .next t := ⟨_, rfl⟩

/-- A cycle that emits, of a PRN at the highest address, and one that does not. -/
theorem witness_OneOutputEventPerPrn :
    (∃ t, step (at_ 254 [0x47, 7]) = .next t ∧ t.outPort = some 0xF4) ∧
      (∃ t, step (at_ 254 [0x47, 8]) = .next t ∧ t.outPort = none) ∧
      decode (bytesAtPc (at_ 254 [0x47, 7])) = .ok (.prn 7, []) := ⟨⟨_, rfl, rfl⟩, ⟨_, rfl, rfl⟩, rfl⟩

/-- A legal state that has faulted: R7 at SP_INIT and a POP, with output from before. -/
def faultedState : State :=
  { State.reset with
    run := .faulted, pc := 0x12, fcause := .stack, fpc := 0x12, fop := 0x46, finfo := 0xF4,
    mem := [(0, 0x82), (0x12, 0x46)], output := [20, 10] }

theorem faultedState_inv : faultedState.Inv :=
  ⟨by decide, by decide, by decide, by decide, by decide, by decide⟩

/-- A legal state in the middle of a run, at the end of memory, with a byte on the port. -/
def runningState : State :=
  { at_ 253 [0x82, 0, 1] with output := [7], outPort := some 7, fl := .gt }

theorem runningState_inv : runningState.Inv :=
  ⟨by decide, by decide, by decide, by decide, by decide, by decide⟩

theorem witness_EveryStepKeepsLegalStates :
    (faultedState.Inv ∧ ∃ t, step faultedState = .next t) ∧ runningState.Inv ∧ ∃ t, step runningState = .next t :=
  ⟨⟨faultedState_inv, _, rfl⟩, runningState_inv, _, rfl⟩

theorem witness_EveryRunKeepsLegalStates : runningState.Inv := runningState_inv

/-- The micro machine at the start of a cycle, its latches holding anything. -/
def microAt (s : State) : Micro := { core := s, stage := s.run.boundary, ir := 0xFF, o1 := 0xFF, o2 := 0xFF, dec := none }

theorem witness_MicroSequenceRealisesStep :
    (microAt (at_ 253 [0x82, 0, 1])).stage = .sFetch ∧ (microAt (at_ 253 [0x82, 0, 1])).core.run = .running ∧
      (microAt (at_ 253 [0x82, 0, 1])).core.pins.rst = false ∧ cycleClocks (at_ 253 [0x82, 0, 1]) = 4 := by decide

theorem witness_MicroResetAndHoldAreSteps :
    ((microAt faultedState).stage.runState = (microAt faultedState).core.run ∧ faultedState.run ≠ .running) ∧
      (microAt { runningState with pins := HostPins.assertReset }).stage.runState = .running ∧
      (microAt { runningState with pins := HostPins.assertReset }).core.pins.rst = true := by decide

/-- A micro machine in S_EXEC with latched bytes and the opcode's decoder outputs. -/
def microExec (s : State) (ir o1 : Byte) : Micro :=
  { core := s, stage := .sExec, ir := ir, o1 := o1, o2 := 0, dec := decoderOutputs ir }

/-- At S_EXEC of a PUSH the port carries the write. -/
theorem witness_MemoryPortCarriesEveryWrite :
    (microExec (spAt 0 0xE5) 0x45 7).stage.runState = (spAt 0 0xE5).run ∧
      (microExec (spAt 0 0xE5) 0x45 7).memPort = some (.write 0xE4 0xE4) := by decide

/-- The three fetch states at their last readable address and at 256, and a RET and a POP at the top stack cell. -/
theorem witness_ReadDataReachesLatchesAndRegisters :
    ((microAt (at_ 255 [0x01])).core.pins.rst = false ∧ (microAt (at_ 255 [0x01])).stage = .sFetch ∧
      (microAt (at_ 255 [0x01])).core.pc.toNat + MicroStage.sFetch.fetchOffset < 256 ∧
      (lookupOpcode 0x01).isSome = true ∧ lookupOpcode 0x83 = none) ∧
    ((at_ 254 []).pc.toNat + MicroStage.sOp1.fetchOffset < 256 ∧ (at_ 253 []).pc.toNat + MicroStage.sOp2.fetchOffset < 256 ∧
      256 ≤ (at_ 255 []).pc.toNat + MicroStage.sOp1.fetchOffset ∧
      MicroStage.sOp1.granted = some .fetchUnit ∧ MicroStage.sOp2.granted = some .fetchUnit) ∧
    ((microExec (spAt 0 0xF3) 0x11 0).stage = .sExec ∧
      (spAt 0 0xF3).regs[7].toNat < (spAt 0 0xF3).cfg.spInit.toNat ∧
      (microExec (spAt 0 0xF3) 0x11 0).dec = some (entryOutputs (entryOf .ret)) ∧
      (microExec (spAt 0 0xF3) 0x46 6).dec = some (entryOutputs (entryOf .pop)) ∧
      (microExec (spAt 0 0xF3) 0x46 6).o1.toNat < 7) := by
  decide

/-- A fetch and a POP whose read data another array gives as well. -/
theorem witness_OnlyReadDataReachesTheCore :
    ((microAt (at_ 5 [0x01])).withMem [(5, 0x01), (6, 0x77)]).memRdata = (microAt (at_ 5 [0x01])).memRdata ∧
    ((microExec (spAt 0 0xF3) 0x46 6).withMem [(0, 0x55)]).memRdata = (microExec (spAt 0 0xF3) 0x46 6).memRdata := by
  decide

/-- Agreeing latches in S_EXEC, where a next edge exists as everywhere, and in S_FETCH with nothing latched. -/
theorem witness_DecoderLatchFollowsOpcodeLatch :
    (microExec (spAt 0 0xF3) 0x46 6).LatchesAgree ∧ (microAt (at_ 253 [0x82, 7, 255])).LatchesAgree ∧
      (microAt (at_ 253 [0x82, 7, 255])).stage = .sFetch := by decide

/-- R104's outputs of ADD and HLT, latched at the S_FETCH edge. -/
theorem test_decoder_outputs_latched :
    (microAt (at_ 0 [0xA0])).clock.dec =
      some { nOps := 2, opSel := .add, setsPc := false, aluOp := some 0x0, halt := false } ∧
    (microAt (at_ 0 [0x01])).clock.dec =
      some { nOps := 0, opSel := .hlt, setsPc := false, aluOp := none, halt := true } := by decide

/-- R79: the port's read data is the addressed byte, in the clock of the request; a write and an idle port have none. -/
theorem test_mem_rdata :
    (microAt (at_ 255 [0x82])).memRdata = some 0x82 ∧ (microAt (at_ 256 [])).memRdata = none ∧
    (microExec { spAt 0 0xF3 with mem := [(0xF3, 42)] } 0x46 1).memRdata = some 42 ∧
    (microExec (spAt 0 0xE5) 0x45 7).memRdata = none := by decide

/-- R184's example at the clock level: POP R1 loads the byte on `mem_rdata`. -/
theorem test_pop_loads_mem_rdata :
    (microExec { spAt 0 0xF3 with mem := [(0xF3, 42)] } 0x46 1).clock.core.reg 1 = 42 := by decide

end Sys2Proof.Tests
end

section
/-! The meaning of `exec` as two relations, once for every instruction: the states it completes in and the faults it raises.
`Completes.exec_eq`, `Raises.exec_eq` and `completes_or_raises` tie them to `exec`; every proof about an instruction goes
through them. -/

namespace Sys2Proof.Machine

/-- The first register operand byte that names no register, in operand order (R232, R239). -/
def firstBadReg (i : Instr) : Option Byte := i.regOperands.find? (fun b => decide (8 ≤ b.toNat))

/-- `Completes i s t`: at `s` instruction `i` passes every check of its rule and its cycle ends in `t`. -/
inductive Completes : Instr → State → State → Prop
  | hlt (s : State) : Completes .hlt s ({ s with run := .halted }.advance 0)
  | ret (s : State) (hsp : (s.reg 7).toNat < s.cfg.spInit.toNat) :
      Completes .ret s ((s.setReg 7 (s.reg 7 + 1)).jump (s.mem.read (s.reg 7).toNat))
  | push (r : Byte) (s : State) (hr : r.toNat < 8) (hsp : s.cfg.stackBase.toNat < (s.reg 7).toNat) :
      Completes (.push r) s
        ({ s.setReg 7 (s.reg 7 - 1) with
            mem := s.mem.write (s.reg 7 - 1).toNat ((s.setReg 7 (s.reg 7 - 1)).reg ⟨r.toNat, hr⟩) }.advance 1)
  | pop (r : Byte) (s : State) (hr : r.toNat < 8) (hsp : (s.reg 7).toNat < s.cfg.spInit.toNat) :
      Completes (.pop r) s
        (((s.setReg ⟨r.toNat, hr⟩ (s.mem.read (s.reg 7).toNat)).setReg 7
            ((s.setReg ⟨r.toNat, hr⟩ (s.mem.read (s.reg 7).toNat)).reg 7 + 1)).advance 1)
  | prn (r : Byte) (s : State) (hr : r.toNat < 8) :
      Completes (.prn r) s ((s.emit (s.reg ⟨r.toNat, hr⟩)).advance 1)
  | call (r : Byte) (s : State) (hr : r.toNat < 8) (hsp : s.cfg.stackBase.toNat < (s.reg 7).toNat)
      (hpc : s.pc.toNat < 254) :
      Completes (.call r) s
        ({ s.setReg 7 (s.reg 7 - 1) with
            mem := s.mem.write (s.reg 7 - 1).toNat (BitVec.ofNat 8 (s.pc.toNat + 2)) }.jump
          ((s.setReg 7 (s.reg 7 - 1)).reg ⟨r.toNat, hr⟩))
  | jmp (r : Byte) (s : State) (hr : r.toNat < 8) : Completes (.jmp r) s (s.jump (s.reg ⟨r.toNat, hr⟩))
  | jeqTaken (r : Byte) (s : State) (hr : r.toNat < 8) (hf : s.fl = .eq) :
      Completes (.jeq r) s (s.jump (s.reg ⟨r.toNat, hr⟩))
  | jeqNotTaken (r : Byte) (s : State) (hr : r.toNat < 8) (hf : s.fl ≠ .eq) : Completes (.jeq r) s (s.advance 1)
  | jneTaken (r : Byte) (s : State) (hr : r.toNat < 8) (hf : s.fl ≠ .eq) :
      Completes (.jne r) s (s.jump (s.reg ⟨r.toNat, hr⟩))
  | jneNotTaken (r : Byte) (s : State) (hr : r.toNat < 8) (hf : s.fl = .eq) : Completes (.jne r) s (s.advance 1)
  | ldi (r imm : Byte) (s : State) (hr : r.toNat < 8) :
      Completes (.ldi r imm) s ((s.setReg ⟨r.toNat, hr⟩ imm).advance 2)
  | add (rA rB : Byte) (s : State) (ha : rA.toNat < 8) (hb : rB.toNat < 8) :
      Completes (.add rA rB) s
        ((s.setReg ⟨rA.toNat, ha⟩ (s.reg ⟨rA.toNat, ha⟩ + s.reg ⟨rB.toNat, hb⟩)).advance 2)
  | mul (rA rB : Byte) (s : State) (ha : rA.toNat < 8) (hb : rB.toNat < 8) :
      Completes (.mul rA rB) s
        ((s.setReg ⟨rA.toNat, ha⟩ (s.reg ⟨rA.toNat, ha⟩ * s.reg ⟨rB.toNat, hb⟩)).advance 2)
  | cmp (rA rB : Byte) (s : State) (ha : rA.toNat < 8) (hb : rB.toNat < 8) :
      Completes (.cmp rA rB) s
        ({ s with fl := compareFlag (s.reg ⟨rA.toNat, ha⟩) (s.reg ⟨rB.toNat, hb⟩) }.advance 2)

/-- `Raises i s r`: at `s` the first check of instruction `i` that fails raises `r`, in the order of R239: registers, stack,
return address. -/
inductive Raises : Instr → State → Raised → Prop
  | register (i : Instr) (s : State) (r : Byte) (hr : firstBadReg i = some r) : Raises i s ⟨.register, zext9 r⟩
  | push (r : Byte) (s : State) (hr : r.toNat < 8) (hsp : (s.reg 7).toNat ≤ s.cfg.stackBase.toNat) :
      Raises (.push r) s (stackFault (s.reg 7))
  | pop (r : Byte) (s : State) (hr : r.toNat < 8) (hsp : s.cfg.spInit.toNat ≤ (s.reg 7).toNat) :
      Raises (.pop r) s (stackFault (s.reg 7))
  | call (r : Byte) (s : State) (hr : r.toNat < 8) (hsp : (s.reg 7).toNat ≤ s.cfg.stackBase.toNat) :
      Raises (.call r) s (stackFault (s.reg 7))
  | ret (s : State) (hsp : s.cfg.spInit.toNat ≤ (s.reg 7).toNat) : Raises .ret s (stackFault (s.reg 7))
  | returnAddress (r : Byte) (s : State) (hr : r.toNat < 8) (hsp : s.cfg.stackBase.toNat < (s.reg 7).toNat)
      (hpc : 254 ≤ s.pc.toNat) : Raises (.call r) s (memoryFault (s.pc.toNat + 2))

/-! ### The stack bounds and the return address, each side of the check -/

theorem pushBound_of_lt (s : State) (h : s.cfg.stackBase.toNat < (s.reg 7).toNat) : pushBound s = .ok (s.reg 7) :=
  if_neg (by simpa using h)

theorem pushBound_of_le (s : State) (h : (s.reg 7).toNat ≤ s.cfg.stackBase.toNat) :
    pushBound s = .error (stackFault (s.reg 7)) := if_pos h

theorem popBound_of_lt (s : State) (h : (s.reg 7).toNat < s.cfg.spInit.toNat) : popBound s = .ok (s.reg 7) :=
  if_neg (by simpa using h)

theorem popBound_of_le (s : State) (h : s.cfg.spInit.toNat ≤ (s.reg 7).toNat) :
    popBound s = .error (stackFault (s.reg 7)) := if_pos h

theorem returnAddress_of_lt (s : State) (h : s.pc.toNat < 254) :
    returnAddress s = .ok (BitVec.ofNat 8 (s.pc.toNat + 2)) := if_neg (by omega)

theorem returnAddress_of_le (s : State) (h : 254 ≤ s.pc.toNat) :
    returnAddress s = .error (memoryFault (s.pc.toNat + 2)) := if_pos (by omega)

/-! ### The relations are `exec` -/

/-- The meaning of an instruction that passes its checks. -/
theorem Completes.exec_eq {i : Instr} {s t : State} (h : Completes i s t) : exec i s = .next t := by
  cases h with
  | hlt => rfl
  | ret _ hsp => simp only [exec, execRet, ruleRet, popBound_of_lt s hsp, bind, Except.bind, memRead_byte, finish_jump]
  | push r _ hr hsp =>
    simp only [exec, execPush, rulePush, checkReg_of_lt r hr, pushBound_of_lt s hsp, bind, Except.bind, memWrite_byte]
    rfl
  | pop r _ hr hsp =>
    simp only [exec, execPop, rulePop, checkReg_of_lt r hr, popBound_of_lt s hsp, bind, Except.bind, memRead_byte]
    rfl
  | call r _ hr hsp hpc =>
    simp only [exec, execCall, ruleCall, checkReg_of_lt r hr, pushBound_of_lt s hsp, returnAddress_of_lt s hpc, bind,
      Except.bind, memWrite_byte]
    rfl
  | prn r _ hr => simp only [exec, execPrn, rulePrn, checkReg_of_lt r hr]; rfl
  | jmp r _ hr => simp only [exec, execJmp, ruleJumpIf, checkReg_of_lt r hr]; rfl
  | jeqTaken r _ hr hf | jeqNotTaken r _ hr hf | jneTaken r _ hr hf | jneNotTaken r _ hr hf =>
    simp [exec, execJeq, execJne, ruleJumpIf, checkReg_of_lt r hr, Flag.jeqTaken, Flag.jneTaken, hf, bind, Except.bind,
      entryOf]
  | ldi r _ _ hr => simp only [exec, execLdi, ruleLdi, checkReg_of_lt r hr]; rfl
  | add rA rB _ ha hb => simp only [exec, execAdd, ruleAdd, aluApply_of_lt _ rA rB s ha hb]; rfl
  | mul rA rB _ ha hb => simp only [exec, execMul, ruleMul, aluApply_of_lt _ rA rB s ha hb]; rfl
  | cmp rA rB _ ha hb => simp only [exec, execCmp, ruleCmp, checkReg_of_lt rA ha, checkReg_of_lt rB hb]; rfl

/-- The bad register of an instruction with one register operand. -/
theorem find_badReg_one {r b : Byte} (h : [r].find? (fun b => decide (8 ≤ b.toNat)) = some b) :
    b = r ∧ 8 ≤ b.toNat := by
  have hb : 8 ≤ b.toNat := by simpa using List.find?_some h
  exact ⟨by simpa using List.mem_of_find?_eq_some h, hb⟩

/-- The bad register of an instruction with two: the first, or the second where the first exists. -/
theorem find_badReg_two {rA rB b : Byte} (h : [rA, rB].find? (fun b => decide (8 ≤ b.toNat)) = some b) :
    (b = rA ∧ 8 ≤ b.toNat) ∨ (rA.toNat < 8 ∧ b = rB ∧ 8 ≤ b.toNat) := by
  by_cases ha : 8 ≤ rA.toNat
  · rw [List.find?_cons_of_pos (by simpa using ha)] at h
    cases h
    exact .inl ⟨rfl, ha⟩
  · rw [List.find?_cons_of_neg (by simpa using ha)] at h
    exact .inr ⟨by omega, find_badReg_one h⟩

/-- A register operand that does not exist is raised before any other check (R232, R239). -/
theorem exec_of_firstBadReg (i : Instr) (s : State) (b : Byte) (h : firstBadReg i = some b) :
    exec i s = .next (faultEntry (entryOf i.mnemonic).opcode ⟨.register, zext9 b⟩ s) := by
  cases i with
  | hlt | ret => cases h
  | push r | pop r | prn r | call r | jmp r | jeq r | jne r | ldi r _ =>
    obtain ⟨rfl, hb⟩ := find_badReg_one h
    simp only [exec, execPush, rulePush, execPop, rulePop, execPrn, rulePrn, execCall, ruleCall, execJmp, execJeq, execJne,
      ruleJumpIf, execLdi, ruleLdi, checkReg_of_le b hb]
    rfl
  | add rA rB | mul rA rB =>
    obtain ⟨rfl, hb⟩ | ⟨ha, rfl, hb⟩ := find_badReg_two h
    · simp only [exec, execAdd, ruleAdd, execMul, ruleMul, aluApply_of_le_left _ b rB s hb]
      rfl
    · simp only [exec, execAdd, ruleAdd, execMul, ruleMul, aluApply_of_le_right _ rA b s ha hb]
      rfl
  | cmp rA rB =>
    obtain ⟨rfl, hb⟩ | ⟨ha, rfl, hb⟩ := find_badReg_two h
    · simp only [exec, execCmp, ruleCmp, checkReg_of_le b hb]
      rfl
    · simp only [exec, execCmp, ruleCmp, checkReg_of_lt rA ha, checkReg_of_le b hb]
      rfl

/-- The meaning of an instruction one of whose checks fails: the fault entry of R237, and nothing else. -/
theorem Raises.exec_eq {i : Instr} {s : State} {r : Raised} (h : Raises i s r) :
    exec i s = .next (faultEntry (entryOf i.mnemonic).opcode r s) := by
  cases h with
  | register _ _ b hb => exact exec_of_firstBadReg i s b hb
  | push r _ hr hsp =>
    simp only [exec, execPush, rulePush, checkReg_of_lt r hr, pushBound_of_le s hsp]
    rfl
  | pop r _ hr hsp =>
    simp only [exec, execPop, rulePop, checkReg_of_lt r hr, popBound_of_le s hsp]
    rfl
  | call r _ hr hsp =>
    simp only [exec, execCall, ruleCall, checkReg_of_lt r hr, pushBound_of_le s hsp]
    rfl
  | ret _ hsp =>
    simp only [exec, execRet, ruleRet, popBound_of_le s hsp]
    rfl
  | returnAddress r _ hr hsp hpc =>
    simp only [exec, execCall, ruleCall, checkReg_of_lt r hr, pushBound_of_lt s hsp, returnAddress_of_le s hpc]
    rfl

/-- Every register operand of an instruction without a bad one exists. -/
theorem lt_of_firstBadReg_eq_none {i : Instr} (h : firstBadReg i = none) {b : Byte} (hb : b ∈ i.regOperands) :
    b.toNat < 8 := by
  simpa using List.find?_eq_none.mp h b hb

/-- Every instruction completes or raises, at every state. -/
theorem completes_or_raises (i : Instr) (s : State) : (∃ t, Completes i s t) ∨ ∃ r, Raises i s r := by
  rcases hbad : firstBadReg i with _ | b
  case some => exact .inr ⟨_, .register i s b hbad⟩
  have hlt {b : Byte} : b ∈ i.regOperands → b.toNat < 8 := lt_of_firstBadReg_eq_none hbad
  cases i with
  | hlt => exact .inl ⟨_, .hlt s⟩
  | prn r => exact .inl ⟨_, .prn r s (hlt (.head _))⟩
  | jmp r => exact .inl ⟨_, .jmp r s (hlt (.head _))⟩
  | jeq r =>
    by_cases hf : s.fl = .eq
    · exact .inl ⟨_, .jeqTaken r s (hlt (.head _)) hf⟩
    · exact .inl ⟨_, .jeqNotTaken r s (hlt (.head _)) hf⟩
  | jne r =>
    by_cases hf : s.fl = .eq
    · exact .inl ⟨_, .jneNotTaken r s (hlt (.head _)) hf⟩
    · exact .inl ⟨_, .jneTaken r s (hlt (.head _)) hf⟩
  | ldi r imm => exact .inl ⟨_, .ldi r imm s (hlt (.head _))⟩
  | add rA rB => exact .inl ⟨_, .add rA rB s (hlt (.head _)) (hlt (.tail _ (.head _)))⟩
  | mul rA rB => exact .inl ⟨_, .mul rA rB s (hlt (.head _)) (hlt (.tail _ (.head _)))⟩
  | cmp rA rB => exact .inl ⟨_, .cmp rA rB s (hlt (.head _)) (hlt (.tail _ (.head _)))⟩
  | ret =>
    rcases Nat.lt_or_ge (s.reg 7).toNat s.cfg.spInit.toNat with hsp | hsp
    · exact .inl ⟨_, .ret s hsp⟩
    · exact .inr ⟨_, .ret s hsp⟩
  | pop r =>
    rcases Nat.lt_or_ge (s.reg 7).toNat s.cfg.spInit.toNat with hsp | hsp
    · exact .inl ⟨_, .pop r s (hlt (.head _)) hsp⟩
    · exact .inr ⟨_, .pop r s (hlt (.head _)) hsp⟩
  | push r =>
    rcases Nat.lt_or_ge s.cfg.stackBase.toNat (s.reg 7).toNat with hsp | hsp
    · exact .inl ⟨_, .push r s (hlt (.head _)) hsp⟩
    · exact .inr ⟨_, .push r s (hlt (.head _)) hsp⟩
  | call r =>
    rcases Nat.lt_or_ge s.cfg.stackBase.toNat (s.reg 7).toNat with hsp | hsp
    · rcases Nat.lt_or_ge s.pc.toNat 254 with hpc | hpc
      · exact .inl ⟨_, .call r s (hlt (.head _)) hsp hpc⟩
      · exact .inr ⟨_, .returnAddress r s (hlt (.head _)) hsp hpc⟩
    · exact .inr ⟨_, .call r s (hlt (.head _)) hsp⟩

/-- Everything an instruction's cycle can end in. -/
theorem exec_cases {i : Instr} {s t : State} (h : exec i s = .next t) :
    Completes i s t ∨ ∃ r, Raises i s r ∧ t = faultEntry (entryOf i.mnemonic).opcode r s := by
  rcases completes_or_raises i s with ⟨u, hu⟩ | ⟨r, hr⟩
  · cases hu.exec_eq.symm.trans h
    exact .inl hu
  · cases hr.exec_eq.symm.trans h
    exact .inr ⟨r, hr, rfl⟩

/-- A completed cycle is the only answer. -/
theorem Completes.eq_of_exec {i : Instr} {s t t' : State} (h : Completes i s t) (h' : exec i s = .next t') : t' = t := by
  cases h.exec_eq.symm.trans h'
  rfl

end Sys2Proof.Machine
end

section
/-! What a completed instruction changes and what it leaves unchanged (10_state.md R32, R37, R46, R48; 20_memory.md R70). -/

namespace Sys2Proof.Machine

variable {i : Instr} {s t : State}

theorem Completes.pins_cfg (h : Completes i s t) : t.pins = s.pins ∧ t.cfg = s.cfg := by
  cases h <;> exact ⟨rfl, rfl⟩

/-- A completed cycle leaves the fault record alone. -/
theorem Completes.record_eq (h : Completes i s t) :
    t.fcause = s.fcause ∧ t.fpc = s.fpc ∧ t.fop = s.fop ∧ t.finfo = s.finfo := by
  cases h <;> exact ⟨rfl, rfl, rfl, rfl⟩

/-- Only HLT writes `RUN`. -/
theorem Completes.run_cases (h : Completes i s t) : t.run = s.run ∨ (i = .hlt ∧ t.run = .halted) := by
  cases h with
  | hlt => exact .inr ⟨rfl, rfl⟩
  | _ => exact .inl rfl

/-- Only CMP writes `FL`. -/
theorem Completes.fl_eq (h : Completes i s t) (hi : i.mnemonic ≠ .cmp) : t.fl = s.fl := by
  cases h with
  | cmp => exact absurd rfl hi
  | _ => rfl

/-- Only PUSH and CALL write memory. -/
theorem Completes.mem_eq (h : Completes i s t) (hpush : i.mnemonic ≠ .push) (hcall : i.mnemonic ≠ .call) :
    t.mem = s.mem := by
  cases h with
  | push => exact absurd rfl hpush
  | call => exact absurd rfl hcall
  | _ => rfl

/-- Only PRN emits: one event, offered on the port. -/
theorem Completes.output_cases (h : Completes i s t) :
    (t.output = s.output ∧ t.outPort = s.outPort) ∨
      ∃ (r : Byte) (hr : r.toNat < 8), i = .prn r ∧ t = (s.emit (s.reg ⟨r.toNat, hr⟩)).advance 1 := by
  cases h with
  | prn r _ hr => exact .inr ⟨r, hr, rfl, rfl⟩
  | _ => exact .inl ⟨rfl, rfl⟩

/-- The registers an instruction may not write keep their values (R32). -/
theorem Completes.reg_eq (h : Completes i s t) {j : Fin 8} (hj : mayWriteReg i j = false) : t.reg j = s.reg j := by
  cases h with
  | hlt | prn | jmp | jeqTaken | jeqNotTaken | jneTaken | jneNotTaken | cmp => rfl
  | ret | push | call =>
    have h7 : (7 : Fin 8) ≠ j := by simpa [mayWriteReg, eq_comm] using hj
    exact State.reg_setReg_other s 7 j _ h7
  | ldi _ _ _ hr | add _ _ _ hr | mul _ _ _ hr =>
    have hdest : (⟨_, hr⟩ : Fin 8) ≠ j := by simpa [mayWriteReg, Fin.ext_iff] using hj
    exact State.reg_setReg_other s _ j _ hdest
  | pop r _ hr =>
    obtain ⟨hdest, h7⟩ : ¬r.toNat = j.val ∧ ¬j = 7 := by simpa [mayWriteReg] using hj
    rw [State.advance_reg, State.reg_setReg_other _ 7 j _ (Ne.symm h7),
      State.reg_setReg_other s _ j _ (fun h => hdest (congrArg Fin.val h))]

/-- A completed cycle keeps the canonical form of memory. -/
theorem Completes.mem_wf (h : Completes i s t) (hs : s.MemOk) : t.MemOk := by
  cases h with
  | push | call => exact Memory.write_wf _ _ _ hs
  | _ => exact hs

/-- The next `pc` is a target byte or the address after the instruction (R35, R136). -/
theorem Completes.pc_cases (h : Completes i s t) :
    (∃ v, t.pc = zext9 v) ∨ t.pc = (s.advance (entryOf i.mnemonic).nOps).pc := by
  cases h with
  | ret | call | jmp | jeqTaken | jneTaken => exact .inl ⟨_, rfl⟩
  | _ => exact .inr rfl

/-- Where the instruction's bytes lie in memory, `pc` does not pass 256 (R35, R143). -/
theorem Completes.pc_le (h : Completes i s t) (hlen : s.pc.toNat + (entryOf i.mnemonic).nOps < 256) : t.PcOk := by
  rcases h.pc_cases with ⟨v, hv⟩ | hadv
  · have := zext9_lt v
    rw [State.PcOk, hv]
    omega
  · rw [State.PcOk, hadv, State.advance_pc_toNat s _ (by omega)]
    omega

/-! ### Changing `FL` beforehand (R38) -/

/-- The state with another flag. -/
def State.withFl (s : State) (f : Flag) : State := { s with fl := f }

/-- A completed instruction other than JEQ and JNE completes under any flag, in the same state but for the flag. -/
theorem Completes.withFl (h : Completes i s t) (f : Flag) (hjeq : i.mnemonic ≠ .jeq) (hjne : i.mnemonic ≠ .jne) :
    ∃ g, Completes i (s.withFl f) (t.withFl g) := by
  cases h with
  | hlt => exact ⟨f, .hlt _⟩
  | ret _ hsp => exact ⟨f, .ret _ hsp⟩
  | push r _ hr hsp => exact ⟨f, .push r _ hr hsp⟩
  | pop r _ hr hsp => exact ⟨f, .pop r _ hr hsp⟩
  | prn r _ hr => exact ⟨f, .prn r _ hr⟩
  | call r _ hr hsp hpc => exact ⟨f, .call r _ hr hsp hpc⟩
  | jmp r _ hr => exact ⟨f, .jmp r _ hr⟩
  | jeqTaken | jeqNotTaken => exact absurd rfl hjeq
  | jneTaken | jneNotTaken => exact absurd rfl hjne
  | ldi r imm _ hr => exact ⟨f, .ldi r imm _ hr⟩
  | add rA rB _ ha hb => exact ⟨f, .add rA rB _ ha hb⟩
  | mul rA rB _ ha hb => exact ⟨f, .mul rA rB _ ha hb⟩
  | cmp rA rB _ ha hb => exact ⟨_, .cmp rA rB _ ha hb⟩

/-- No check of an instruction reads `FL`. -/
theorem Raises.withFl {r : Raised} (h : Raises i s r) (f : Flag) : Raises i (s.withFl f) r := by
  cases h with
  | register _ _ b hb => exact .register i _ b hb
  | push r _ hr hsp => exact .push r _ hr hsp
  | pop r _ hr hsp => exact .pop r _ hr hsp
  | call r _ hr hsp => exact .call r _ hr hsp
  | ret _ hsp => exact .ret _ hsp
  | returnAddress r _ hr hsp hpc => exact .returnAddress r _ hr hsp hpc

/-- Every instruction but JEQ and JNE answers the same state, but for `FL`, whatever `FL` held before. -/
theorem exec_withFl (h : exec i s = .next t) (f : Flag) (hjeq : i.mnemonic ≠ .jeq) (hjne : i.mnemonic ≠ .jne) :
    ∃ g, exec i (s.withFl f) = .next (t.withFl g) := by
  rcases exec_cases h with hc | ⟨r, hr, rfl⟩
  · obtain ⟨g, hg⟩ := hc.withFl f hjeq hjne
    exact ⟨g, hg.exec_eq⟩
  · exact ⟨f, (hr.withFl f).exec_eq⟩

end Sys2Proof.Machine
end

section
/-! The statements about single instructions. -/

namespace Sys2Proof.Machine

/-- Settles O34, the register clause of `Raises`. -/
theorem firstBadRegisterOperandFaults : Obligations.FirstBadRegisterOperandFaults :=
  fun i s b hb => (Raises.register i s b hb).exec_eq

/-- JEQ is taken exactly when `FL` is EQ (R211). -/
theorem exec_jeq (r : Byte) (s : State) (hr : r.toNat < 8) :
    exec (.jeq r) s = .next { s with pc := if s.fl = .eq then zext9 (s.reg ⟨r.toNat, hr⟩) else s.pc + 2 } := by
  by_cases hf : s.fl = .eq
  · rw [if_pos hf]
    exact (Completes.jeqTaken r s hr hf).exec_eq
  · rw [if_neg hf]
    exact (Completes.jeqNotTaken r s hr hf).exec_eq

/-- JNE is taken exactly when `FL` is not EQ (R212). -/
theorem exec_jne (r : Byte) (s : State) (hr : r.toNat < 8) :
    exec (.jne r) s = .next { s with pc := if s.fl ≠ .eq then zext9 (s.reg ⟨r.toNat, hr⟩) else s.pc + 2 } := by
  by_cases hf : s.fl = .eq
  · rw [if_neg (not_not.mpr hf)]
    exact (Completes.jneNotTaken r s hr hf).exec_eq
  · rw [if_pos hf]
    exact (Completes.jneTaken r s hr hf).exec_eq

/-- Settles O27: the two conditional jumps by their equations, every other instruction by `exec_withFl`. -/
theorem onlyJeqAndJneReadFlag : Obligations.OnlyJeqAndJneReadFlag := by
  refine ⟨fun r s hr => ⟨exec_jeq r s hr, exec_jne r s hr⟩, ?_⟩
  intro i s t t' f hjeq hjne h h'
  obtain ⟨g, hg⟩ := exec_withFl h f hjeq hjne
  cases hg.symm.trans h'
  rfl

/-- The comparator answers one of the three orders (R200). -/
theorem compareFlag_cases (a b : Byte) : compareFlag a b = .eq ∨ compareFlag a b = .gt ∨ compareFlag a b = .lt := by
  unfold compareFlag
  split
  · exact .inl rfl
  · split
    · exact .inr (.inl rfl)
    · exact .inr (.inr rfl)

/-- Settles O28. -/
theorem onlyCmpWritesFlag : Obligations.OnlyCmpWritesFlag := by
  constructor
  · intro i s t hi h
    rcases exec_cases h with hc | ⟨r, -, rfl⟩
    · exact hc.fl_eq hi
    · rfl
  · intro rA rB s t f ha hb h
    cases (Completes.cmp rA rB s ha hb).eq_of_exec h
    exact ⟨compareFlag_cases _ _, (Completes.cmp rA rB (s.withFl f) ha hb).exec_eq⟩

/-- Settles O29: a completed cycle part by part, and a fault entry changes only `RUN` and the record. -/
theorem everyInstructionKeepsItsFrame : Obligations.EveryInstructionKeepsItsFrame := by
  intro i s t h
  rcases exec_cases h with hc | ⟨r, -, rfl⟩
  · obtain ⟨hpins, hcfg⟩ := hc.pins_cfg
    refine ⟨hpins, hcfg, fun j hj => hc.reg_eq hj, hc.fl_eq, fun hpush hcall a => by rw [hc.mem_eq hpush hcall],
      fun hprn => ?_, fun _ => hc.record_eq, hc.run_cases.imp_right .inr⟩
    rcases hc.output_cases with hout | ⟨r, -, rfl, -⟩
    · exact hout
    · exact absurd rfl hprn
  · exact ⟨rfl, rfl, fun _ _ => rfl, fun _ => rfl, fun _ _ _ => rfl, fun _ => ⟨rfl, rfl⟩, fun hrun => absurd rfl hrun,
      .inr (.inl rfl)⟩

end Sys2Proof.Machine
end

section
/-! What a step can do: the fetch and decode of a cycle, and the rows of the run-state table (40_control_fsm.md R130 to
R134). -/

namespace Sys2Proof

/-- Decoding answers an instruction only after its last byte has been read (R131). -/
theorem decodeWith_ok {read : Nat → Option Byte} {i : Instr} (h : decodeWith read = .ok i) :
    ∃ b, read (entryOf i.mnemonic).nOps = some b := by
  unfold decodeWith at h
  split at h
  · cases h
  next op h0 =>
  split at h
  · cases h
  next e he =>
  obtain ⟨hrow, -⟩ := lookupOpcode_eq_some op e he
  split at h
  next hn =>
    cases h
    rw [buildInstr_mnemonic, ← hrow, hn]
    exact ⟨op, h0⟩
  split at h
  · cases h
  next o1 h1 =>
  split at h
  next hn =>
    cases h
    rw [buildInstr_mnemonic, ← hrow, hn]
    exact ⟨o1, h1⟩
  split at h
  · cases h
  next hn0 hn1 o2 h2 =>
  cases h
  have hle : e.nOps ≤ 2 := hrow ▸ entryOf_nOps_le e.mnemonic
  rw [buildInstr_mnemonic, ← hrow, show e.nOps = 2 by omega]
  exact ⟨o2, h2⟩

/-- Every rejection of the decoder: the byte that is not there is the first one missing (R132 to R134). -/
theorem decodeWith_error {read : Nat → Option Byte} {e : DecodeError} (h : decodeWith read = .error e) :
    (e = .noOpcode ∧ read 0 = none) ∨
      (∃ op, e = .unknownOpcode op ∧ lookupOpcode op = none) ∨
      ∃ op k b, e = .missingOperand op (k + 1) ∧ k < 2 ∧ (lookupOpcode op).isSome = true ∧ read k = some b ∧
        read (k + 1) = none := by
  unfold decodeWith at h
  split at h
  next h0 =>
    cases h
    exact .inl ⟨rfl, h0⟩
  next op h0 =>
  split at h
  next hop =>
    cases h
    exact .inr (.inl ⟨op, rfl, hop⟩)
  next entry hop =>
  have hsome : (lookupOpcode op).isSome = true := by rw [hop]; rfl
  split at h
  · cases h
  split at h
  next h1 =>
    cases h
    exact .inr (.inr ⟨op, 0, op, rfl, by decide, hsome, h0, h1⟩)
  next o1 h1 =>
  split at h
  · cases h
  split at h
  next h2 =>
    cases h
    exact .inr (.inr ⟨op, 1, o1, rfl, by decide, hsome, h1, h2⟩)
  · cases h

namespace Machine

/-! ### Fetching -/

theorem lt_of_fetchByte_eq_some {s : State} {k : Nat} {b : Byte} (h : fetchByte s k = some b) :
    s.pc.toNat + k < 256 := by
  by_contra hlt
  rw [fetchByte_eq, if_neg hlt] at h
  cases h

theorem le_of_fetchByte_eq_none {s : State} {k : Nat} (h : fetchByte s k = none) : 256 ≤ s.pc.toNat + k := by
  by_contra hlt
  rw [fetchByte_eq, if_pos (by omega)] at h
  cases h

/-- The bytes from `pc` on are what the fetch unit reads. -/
theorem getElem?_bytesAtPc (s : State) (k : Nat) : (bytesAtPc s)[k]? = fetchByte s k := by
  rw [fetchByte_eq, bytesAtPc, List.getElem?_map]
  split
  next h => simp [show k < 256 - s.pc.toNat by omega]
  next h => simp [show 256 - s.pc.toNat ≤ k by omega]

/-- Decoding the bytes at `pc` is what the cycle's fetch does. -/
theorem decode_bytesAtPc (s : State) (i : Instr) :
    (∃ rest, decode (bytesAtPc s) = .ok (i, rest)) ↔ decodeWith (fetchByte s) = .ok i := by
  have hread : (fun k => (bytesAtPc s)[k]?) = fetchByte s := funext (getElem?_bytesAtPc s)
  rw [decode, hread]
  cases decodeWith (fetchByte s) with
  | error e => simp
  | ok j => simp

/-- A failed fetch or decode is a fault entry (R132 to R134). -/
theorem fetchFault_eq_faultEntry (e : DecodeError) (s : State) : ∃ op r, fetchFault e s = faultEntry op r s := by
  cases e <;> exact ⟨_, _, rfl⟩

/-! ### The cycle and the step -/

/-- Everything a cycle can end in: the fault of a failed fetch, or what the decoded instruction answers. -/
theorem runCycle_cases {s t : State} (h : runCycle s = .next t) :
    (∃ e, decodeWith (fetchByte s) = .error e ∧ t = fetchFault e s.clearPort) ∨
      ∃ i, decodeWith (fetchByte s) = .ok i ∧ exec i s.clearPort = .next t := by
  unfold runCycle at h
  split at h
  next i hi => exact .inr ⟨i, hi, h⟩
  next e he =>
    cases h
    exact .inl ⟨e, he, rfl⟩

/-- With `rst` low a step in RUNNING is one cycle. -/
theorem step_running {s : State} (hrun : s.run = .running) (hrst : s.pins.rst = false) : step s = runCycle s := by
  simp [step, hrun, hrst]

/-- Everything a step can do (R130). -/
theorem step_cases {s t : State} (h : step s = .next t) :
    t = s.hostLoad.applyReset ∨ (s.run = .reset ∧ t = s.hostLoad.release) ∨ (s.run = .running ∧ runCycle s = .next t) ∨
      (s.Ended ∧ t = s.clearPort) := by
  unfold step at h
  split at h
  · cases h
    exact .inl rfl
  split at h
  next hrun => cases h; exact .inr (.inl ⟨hrun, rfl⟩)
  next hrun => exact .inr (.inr (.inl ⟨hrun, h⟩))
  next hrun => cases h; exact .inr (.inr (.inr ⟨.inl hrun, rfl⟩))
  next hrun => cases h; exact .inr (.inr (.inr ⟨.inr hrun, rfl⟩))

end Machine
end Sys2Proof
end

section
/-! The statements about a step: the configuration, the output events, the status outputs. -/

namespace Sys2Proof.Machine

/-- The load port changes memory alone (R80). -/
theorem State.hostLoad_eq (s : State) : s.hostLoad = { s with mem := s.hostLoad.mem } := by
  rcases s.hostLoad_cases with ⟨-, -, h⟩ | ⟨-, h⟩ <;> rw [h]

theorem State.hostLoad_cfg_pins (s : State) : s.hostLoad.cfg = s.cfg ∧ s.hostLoad.pins = s.pins := by
  rw [s.hostLoad_eq]
  exact ⟨rfl, rfl⟩

theorem runCycle_cfg_pins {s t : State} (h : runCycle s = .next t) : t.cfg = s.cfg ∧ t.pins = s.pins := by
  rcases runCycle_cases h with ⟨e, -, rfl⟩ | ⟨i, -, hi⟩
  · obtain ⟨op, r, hop⟩ := fetchFault_eq_faultEntry e s.clearPort
    rw [hop]
    exact ⟨rfl, rfl⟩
  · rcases exec_cases hi with hc | ⟨r, -, rfl⟩
    · exact hc.pins_cfg.symm
    · exact ⟨rfl, rfl⟩

/-- Settles O47, row by row of the run-state table. -/
theorem configurationIsConstant : Obligations.ConfigurationIsConstant := by
  intro s t h
  rcases step_cases h with rfl | ⟨-, rfl⟩ | ⟨-, hcycle⟩ | ⟨-, rfl⟩
  · exact s.hostLoad_cfg_pins
  · exact s.hostLoad_cfg_pins
  · exact runCycle_cfg_pins hcycle
  · exact ⟨rfl, rfl⟩

/-- Everything a cycle can emit: nothing, or the register of the PRN it decoded (R46, R247). -/
theorem runCycle_output_cases {s t : State} (h : runCycle s = .next t) :
    (t.output = s.output ∧ t.outPort = none) ∨
      ∃ (r : Byte) (hr : r.toNat < 8), decodeWith (fetchByte s) = .ok (.prn r) ∧
        t = (s.emit (s.reg ⟨r.toNat, hr⟩)).advance 1 := by
  rcases runCycle_cases h with ⟨e, -, rfl⟩ | ⟨i, hdec, hi⟩
  · obtain ⟨op, r, hop⟩ := fetchFault_eq_faultEntry e s.clearPort
    rw [hop]
    exact .inl ⟨rfl, rfl⟩
  · rcases exec_cases hi with hc | ⟨r, -, rfl⟩
    · rcases hc.output_cases with hout | ⟨r, hr, rfl, ht⟩
      · exact .inl hout
      · exact .inr ⟨r, hr, hdec, ht⟩
    · exact .inl ⟨rfl, rfl⟩

/-- A cycle that decodes a PRN of a register that exists (R161). -/
theorem runCycle_prn {s : State} {r : Byte} (hr : r.toNat < 8) (hdec : decodeWith (fetchByte s) = .ok (.prn r)) :
    runCycle s = .next ((s.emit (s.reg ⟨r.toNat, hr⟩)).advance 1) := by
  rw [runCycle, hdec]
  exact (Completes.prn r s.clearPort hr).exec_eq

/-- Settles O48: a step in RUNNING is one cycle, and decoding the bytes at `pc` is the cycle's fetch. -/
theorem oneOutputEventPerPrn : Obligations.OneOutputEventPerPrn := by
  constructor
  · intro s t hrun hrst h
    rw [step_running hrun hrst] at h
    rcases runCycle_output_cases h with hnone | ⟨r, hr, hdec, rfl⟩
    · exact .inl hnone
    · obtain ⟨rest, hrest⟩ := (decode_bytesAtPc s (.prn r)).mpr hdec
      exact .inr ⟨r, rest, hr, hrest, rfl, rfl⟩
  · intro s r rest hr hrun hrst hrest
    rw [step_running hrun hrst]
    exact ⟨_, runCycle_prn hr ((decode_bytesAtPc s (.prn r)).mp ⟨rest, hrest⟩), rfl, rfl⟩

/-! ### The status outputs -/

/-- No two run states share a code (R40). -/
theorem RunState.code_inj {a b : RunState} : a.code = b.code ↔ a = b := by
  cases a <;> cases b <;> decide

/-- No two fault causes share a code (R41). -/
theorem FaultCause.code_inj {a b : FaultCause} : a.code = b.code ↔ a = b := by
  cases a <;> cases b <;> decide

/-- Codes 6 and 7 of `FCAUSE` are never shown (R41). -/
theorem FaultCause.code_ne (c : FaultCause) : c.code ≠ 6 ∧ c.code ≠ 7 := by
  cases c <;> decide

/-- Settles O49: the outputs are the codes of the state's fields, and the codes are one-to-one. -/
theorem statusOutputsShowTheState : Obligations.StatusOutputsShowTheState := by
  refine ⟨⟨rfl, rfl, rfl, rfl⟩, fun s => ?_⟩
  have hhalted : (statusOutputs s).halted = true ↔ s.run = .halted := decide_eq_true_iff
  have hfaulted : (statusOutputs s).faulted = true ↔ s.run = .faulted := decide_eq_true_iff
  have hrun (r : RunState) : (statusOutputs s).runState = r.code ↔ s.run = r := RunState.code_inj
  have hcause (c : FaultCause) : (statusOutputs s).faultCause = c.code ↔ s.fcause = c := FaultCause.code_inj
  obtain ⟨hsix, hseven⟩ := s.fcause.code_ne
  exact ⟨hhalted.trans (hrun .halted).symm, hfaulted.trans (hrun .faulted).symm, hrun .reset, hrun .running,
    hrun .halted, hrun .faulted, hhalted, hfaulted, hsix, hseven, rfl, rfl, rfl, hcause .none, hcause .memory,
    hcause .register, hcause .stack, hcause .unsupportedOperation, hcause .unknownInstruction⟩

end Sys2Proof.Machine
end

section
/-! The invariant, kept by every step: the load port, the reset, the release, the hold, a completed cycle and the two kinds
of fault entry, one lemma each. -/

namespace Sys2Proof.Machine

variable {s t : State}

theorem State.Inv.hostLoad (h : s.Inv) : s.hostLoad.Inv := by
  obtain ⟨hmem, hpc, hcfg, hrecord, hreset, hport⟩ := h
  have hwf := s.hostLoad_wf hmem
  rw [s.hostLoad_eq]
  exact ⟨hwf, hpc, hcfg, hrecord, hreset, hport⟩

/-- R260: the reset values are legal whatever the state was. -/
theorem State.Inv.applyReset (h : s.Inv) : s.applyReset.Inv := by
  obtain ⟨hmem, -, hcfg, -⟩ := h
  exact ⟨hmem, Nat.zero_le _, hcfg, ⟨nofun, fun _ => ⟨rfl, rfl, rfl, rfl⟩⟩, fun _ => ⟨rfl, rfl, rfl, rfl⟩, .inl rfl⟩

/-- R262: in RESET the fault record is clear, so it is clear on release. -/
theorem State.Inv.release (h : s.Inv) (hrun : s.run = .reset) : s.release.Inv := by
  obtain ⟨hmem, -, hcfg, ⟨-, hclear⟩, -⟩ := h
  exact ⟨hmem, Nat.zero_le _, hcfg, ⟨nofun, fun _ => hclear (by rw [hrun]; decide)⟩, nofun, .inl rfl⟩

/-- R247: the strobe's end touches nothing else. -/
theorem State.Inv.clearPort (h : s.Inv) : s.clearPort.Inv := by
  obtain ⟨hmem, hpc, hcfg, hrecord, hreset, -⟩ := h
  exact ⟨hmem, hpc, hcfg, hrecord, hreset, .inl rfl⟩

/-! ### Fault entries -/

/-- R237: a fault entry with a record that fits is legal, the strobe being over. -/
theorem State.Inv.fault (h : s.Inv) (hport : s.outPort = none) {op : Byte} {r : Raised}
    (hfit : (faultEntry op r s).RecordFits) : (faultEntry op r s).Inv := by
  obtain ⟨hmem, hpc, hcfg, -⟩ := h
  exact ⟨hmem, hpc, hcfg, ⟨fun _ => hfit, fun hrun => absurd rfl hrun⟩, nofun, .inl hport⟩

/-- The recorded opcode byte of an instruction's own fault names its mnemonic. -/
theorem faultEntry_fopIn {m : Mnemonic} {ms : List Mnemonic} (r : Raised) (s : State) (hm : m ∈ ms) :
    (faultEntry (entryOf m).opcode r s).FopIn ms := by
  simpa [State.FopIn] using hm

/-- R232: only an instruction with a register operand has a bad one, and its byte is 8 to 255. -/
theorem registerRecord_of_firstBadReg {i : Instr} {b : Byte} (s : State) (hb : firstBadReg i = some b) :
    (faultEntry (entryOf i.mnemonic).opcode ⟨.register, zext9 b⟩ s).RegisterRecord := by
  have hle : 8 ≤ b.toNat := by simpa using List.find?_some hb
  refine ⟨by simpa using hle, Nat.le_of_lt_succ (zext9_lt b), faultEntry_fopIn _ s ?_⟩
  cases i with
  | hlt | ret => cases hb
  | _ => simp [Instr.mnemonic]

/-- Every raise of an instruction whose bytes lie in memory leaves a record that fits (R231 to R233). -/
theorem Raises.recordFits {i : Instr} {r : Raised} (h : Raises i s r)
    (hlen : s.pc.toNat + (entryOf i.mnemonic).nOps < 256) :
    (faultEntry (entryOf i.mnemonic).opcode r s).RecordFits := by
  refine ⟨rfl, ?_⟩
  cases h with
  | register _ _ b hb => exact .inr (.inl ⟨rfl, registerRecord_of_firstBadReg s hb⟩)
  | push _ _ _ hsp | call _ _ _ hsp =>
    exact .inr (.inr (.inl ⟨rfl, rfl, .inl ⟨faultEntry_fopIn _ s (by simp [Instr.mnemonic]), hsp⟩⟩))
  | pop _ _ _ hsp | ret _ hsp =>
    exact .inr (.inr (.inl ⟨rfl, rfl, .inr ⟨faultEntry_fopIn _ s (by simp [Instr.mnemonic]), hsp⟩⟩))
  | returnAddress r _ _ _ hpc =>
    have hlen' : s.pc.toNat + 1 < 256 := hlen
    have h254 : s.pc = 254 := BitVec.eq_of_toNat_eq (show s.pc.toNat = 254 by omega)
    refine .inl ⟨rfl, ?_, .inr ⟨.inl h254, rfl⟩⟩
    simp [memoryFault, h254]

/-- Every failed fetch or decode leaves a record that fits (R231, R235). -/
theorem fetchFault_recordFits {e : DecodeError} (hpc : s.PcOk) (h : decodeWith (fetchByte s) = .error e) :
    (fetchFault e s).RecordFits := by
  rcases decodeWith_error h with ⟨rfl, h0⟩ | ⟨op, rfl, hop⟩ | ⟨op, k, b, rfl, hk, hop, hsome, hnone⟩
  · have hle := le_of_fetchByte_eq_none h0
    have h256 : s.pc = 256 := BitVec.eq_of_toNat_eq (show s.pc.toNat = 256 by omega)
    refine ⟨rfl, .inl ⟨rfl, ?_, .inl ⟨h256, rfl⟩⟩⟩
    simp [fetchFault, memoryFault, h256]
  · exact ⟨rfl, .inr (.inr (.inr ⟨rfl, rfl, hop⟩))⟩
  · have hlt := lt_of_fetchByte_eq_some hsome
    have hle := le_of_fetchByte_eq_none hnone
    have hinfo : s.pc.toNat + (k + 1) = 256 := by omega
    have hpc' : s.pc = 254 ∨ s.pc = 255 := by bv_omega
    refine ⟨rfl, .inl ⟨rfl, ?_, .inr ⟨hpc', hop⟩⟩⟩
    simp [fetchFault, memoryFault, hinfo]

/-! ### The cycle -/

/-- A completed cycle keeps the invariant: it is in RUNNING, so the record is clear, and it leaves it so. -/
theorem Completes.inv {i : Instr} (hc : Completes i s t) (h : s.Inv) (hrun : s.run = .running)
    (hport : s.outPort = none) (hlen : s.pc.toNat + (entryOf i.mnemonic).nOps < 256) : t.Inv := by
  obtain ⟨hmem, -, hcfg, ⟨-, hclear⟩, -⟩ := h
  obtain ⟨-, hcfg'⟩ := hc.pins_cfg
  have hrun' : t.run = .running ∨ t.run = .halted := by
    rcases hc.run_cases with hsame | ⟨-, hhalted⟩
    · exact .inl (hsame.trans hrun)
    · exact .inr hhalted
  have hclear' : t.RecordClear := by
    obtain ⟨hcause, hfpc, hfop, hfinfo⟩ := hc.record_eq
    rw [State.RecordClear, hcause, hfpc, hfop, hfinfo]
    exact hclear (by rw [hrun]; decide)
  have hport' : t.PortOk := by
    rcases hc.output_cases with ⟨-, hnone⟩ | ⟨r, hr, -, rfl⟩
    · exact .inl (hnone.trans hport)
    · exact .inr ⟨hrun, by simp⟩
  refine ⟨hc.mem_wf hmem, hc.pc_le hlen, ?_, ⟨fun hfault => ?_, fun _ => hclear'⟩, fun hreset => ?_, hport'⟩
  · rw [State.CfgOk, hcfg']
    exact hcfg
  · rw [hfault] at hrun'
    exact absurd hrun' (by decide)
  · rw [hreset] at hrun'
    exact absurd hrun' (by decide)

/-- A cycle keeps the invariant: its fetch fails, or its instruction completes or raises. -/
theorem runCycle_inv (h : s.Inv) (hrun : s.run = .running) (hcycle : runCycle s = .next t) : t.Inv := by
  have hstart : s.clearPort.Inv := h.clearPort
  obtain ⟨-, hpc, -⟩ := h
  rcases runCycle_cases hcycle with ⟨e, he, rfl⟩ | ⟨i, hi, hexec⟩
  · have hfit : (fetchFault e s.clearPort).RecordFits := fetchFault_recordFits hpc he
    obtain ⟨op, r, hop⟩ := fetchFault_eq_faultEntry e s.clearPort
    rw [hop] at hfit ⊢
    exact hstart.fault rfl hfit
  · obtain ⟨b, hb⟩ := decodeWith_ok hi
    have hlen : s.clearPort.pc.toNat + (entryOf i.mnemonic).nOps < 256 := lt_of_fetchByte_eq_some hb
    rcases exec_cases hexec with hc | ⟨r, hr, rfl⟩
    · exact hc.inv hstart hrun rfl hlen
    · exact hstart.fault rfl (hr.recordFits hlen)

/-- Settles O51, row by row of the run-state table. -/
theorem everyStepKeepsLegalStates : Obligations.EveryStepKeepsLegalStates := by
  intro s t h hstep
  rcases step_cases hstep with rfl | ⟨hrun, rfl⟩ | ⟨hrun, hcycle⟩ | ⟨-, rfl⟩
  · exact h.hostLoad.applyReset
  · exact h.hostLoad.release (by rw [s.hostLoad_eq]; exact hrun)
  · exact runCycle_inv h hrun hcycle
  · exact h.clearPort

end Sys2Proof.Machine
end

section
/-! Memory behind the arbiter and the load port: the frame of a stack store, independence of memory and of the load pins
(20_memory.md R70 to R85). -/

namespace Sys2Proof.Machine

variable {i : Instr} {s t : State}

/-- Settles O32, by the two sides of the arbiter's bound. -/
theorem arbiterReadsAndWritesOneCell : Obligations.ArbiterReadsAndWritesOneCell := by
  intro s a v
  refine ⟨fun ha => ⟨memRead_of_lt s a ha, _, memWrite_of_lt s a v ha, ?_, fun b hb => ?_, rfl⟩,
    fun ha => ⟨memRead_of_le s a ha, memWrite_of_le s a v ha⟩⟩
  · rw [memRead_of_lt _ a ha, Memory.read_write_same s.mem a v ha]
  · rw [memRead, memRead, Memory.read_write_other s.mem a b v hb]

/-! ### PUSH and CALL -/

/-- A completed PUSH or CALL stores one byte, at R7 - 1 (R183, R190). -/
theorem Completes.mem_write (h : Completes i s t) (hi : i.mnemonic = .push ∨ i.mnemonic = .call) :
    ∃ v, t.mem = s.mem.write (s.reg 7 - 1).toNat v := by
  cases h with
  | push | call => exact ⟨_, rfl⟩
  | _ => simp [Instr.mnemonic] at hi

/-- Settles O30: a completed store by `Completes.mem_write`, and only a fault entry, which keeps memory, sets FAULTED. -/
theorem stackStoresTouchOneCell : Obligations.StackStoresTouchOneCell := by
  intro r i s t hi h
  have hmn : i.mnemonic = .push ∨ i.mnemonic = .call := hi.imp (congrArg _) (congrArg _)
  rcases exec_cases h with hc | ⟨_, -, rfl⟩
  · obtain ⟨v, hv⟩ := hc.mem_write hmn
    refine ⟨fun a ha => ?_, fun hrun hfault => ?_⟩
    · rw [hv]
      exact Memory.read_write_other _ _ _ _ ha
    · rcases hc.run_cases with hsame | ⟨-, hhalted⟩
      · exact absurd (hsame.symm.trans hfault) hrun
      · exact absurd (hhalted.symm.trans hfault) (by decide)
  · exact ⟨fun _ _ => rfl, fun _ _ _ => rfl⟩

/-! ### Another memory -/

/-- The state with another memory. -/
def State.withMem (s : State) (m : Memory) : State := { s with mem := m }

/-- A completed instruction that is none of the four stack instructions completes over any memory, in the same state but for
the memory (R70). -/
theorem Completes.withMem (h : Completes i s t) (m : Memory) (hpush : i.mnemonic ≠ .push) (hpop : i.mnemonic ≠ .pop)
    (hcall : i.mnemonic ≠ .call) (hret : i.mnemonic ≠ .ret) : Completes i (s.withMem m) (t.withMem m) := by
  cases h with
  | push => exact absurd rfl hpush
  | pop => exact absurd rfl hpop
  | call => exact absurd rfl hcall
  | ret => exact absurd rfl hret
  | hlt => exact .hlt _
  | prn r _ hr => exact .prn r _ hr
  | jmp r _ hr => exact .jmp r _ hr
  | jeqTaken r _ hr hf => exact .jeqTaken r _ hr hf
  | jeqNotTaken r _ hr hf => exact .jeqNotTaken r _ hr hf
  | jneTaken r _ hr hf => exact .jneTaken r _ hr hf
  | jneNotTaken r _ hr hf => exact .jneNotTaken r _ hr hf
  | ldi r imm _ hr => exact .ldi r imm _ hr
  | add rA rB _ ha hb => exact .add rA rB _ ha hb
  | mul rA rB _ ha hb => exact .mul rA rB _ ha hb
  | cmp rA rB _ ha hb => exact .cmp rA rB _ ha hb

/-- A check depends on R7, `pc` and the stack constants alone. -/
theorem Raises.congr {s' : State} {r : Raised} (h : Raises i s r) (hsp : s'.reg 7 = s.reg 7) (hpc : s'.pc = s.pc)
    (hcfg : s'.cfg = s.cfg) : Raises i s' r := by
  cases h with
  | register _ _ b hb => exact .register i s' b hb
  | push r _ hr h => rw [← hsp, ← hcfg] at h; rw [← hsp]; exact .push r s' hr h
  | pop r _ hr h => rw [← hsp, ← hcfg] at h; rw [← hsp]; exact .pop r s' hr h
  | call r _ hr h => rw [← hsp, ← hcfg] at h; rw [← hsp]; exact .call r s' hr h
  | ret _ h => rw [← hsp, ← hcfg] at h; rw [← hsp]; exact .ret s' h
  | returnAddress r _ hr h h254 =>
    rw [← hsp, ← hcfg] at h
    rw [← hpc] at h254 ⊢
    exact .returnAddress r s' hr h h254

/-- Settles O31: a completed instruction by `Completes.withMem`, a fault entry because no check reads memory. -/
theorem onlyStackInstructionsTouchMemory : Obligations.OnlyStackInstructionsTouchMemory := by
  constructor
  · intro i s t m hpush hpop hcall hret h
    rcases exec_cases h with hc | ⟨r, hr, rfl⟩
    · exact ⟨hc.mem_eq hpush hcall, (hc.withMem m hpush hpop hcall hret).exec_eq⟩
    · exact ⟨rfl, (hr.congr (s' := s.withMem m) rfl rfl rfl).exec_eq⟩
  · intro i s t hi h
    rcases exec_cases h with hc | ⟨r, -, rfl⟩
    · have hne : i.mnemonic ≠ .push ∧ i.mnemonic ≠ .call := by rcases hi with hi | hi <;> simp [hi]
      exact hc.mem_eq hne.1 hne.2
    · rfl

/-! ### Other pin levels -/

/-- No rule reads the pins. -/
theorem Completes.drive (h : Completes i s t) (p : HostPins) : Completes i (s.drive p) (t.drive p) := by
  cases h with
  | hlt => exact .hlt _
  | ret _ hsp => exact .ret _ hsp
  | push r _ hr hsp => exact .push r _ hr hsp
  | pop r _ hr hsp => exact .pop r _ hr hsp
  | prn r _ hr => exact .prn r _ hr
  | call r _ hr hsp hpc => exact .call r _ hr hsp hpc
  | jmp r _ hr => exact .jmp r _ hr
  | jeqTaken r _ hr hf => exact .jeqTaken r _ hr hf
  | jeqNotTaken r _ hr hf => exact .jeqNotTaken r _ hr hf
  | jneTaken r _ hr hf => exact .jneTaken r _ hr hf
  | jneNotTaken r _ hr hf => exact .jneNotTaken r _ hr hf
  | ldi r imm _ hr => exact .ldi r imm _ hr
  | add rA rB _ ha hb => exact .add rA rB _ ha hb
  | mul rA rB _ ha hb => exact .mul rA rB _ ha hb
  | cmp rA rB _ ha hb => exact .cmp rA rB _ ha hb

theorem exec_drive (h : exec i s = .next t) (p : HostPins) : exec i (s.drive p) = .next (t.drive p) := by
  rcases exec_cases h with hc | ⟨r, hr, rfl⟩
  · exact (hc.drive p).exec_eq
  · exact (hr.congr (s' := s.drive p) rfl rfl rfl).exec_eq

/-- A failed fetch or decode ends in its fault. -/
theorem runCycle_of_error {e : DecodeError} (h : decodeWith (fetchByte s) = .error e) :
    runCycle s = .next (fetchFault e s.clearPort) := by
  rw [runCycle, h]

/-- A decoded instruction's cycle is its meaning, the output strobe being over. -/
theorem runCycle_of_ok (h : decodeWith (fetchByte s) = .ok i) : runCycle s = exec i s.clearPort := by
  rw [runCycle, h]

theorem runCycle_drive (h : runCycle s = .next t) (p : HostPins) : runCycle (s.drive p) = .next (t.drive p) := by
  have hfetch : fetchByte (s.drive p) = fetchByte s := rfl
  rcases runCycle_cases h with ⟨e, he, rfl⟩ | ⟨i, hi, hexec⟩
  · rw [runCycle_of_error (hfetch ▸ he)]
    cases e <;> rfl
  · rw [runCycle_of_ok (hfetch ▸ hi)]
    exact exec_drive hexec p

/-- The load port writes nothing outside RESET (R80). -/
theorem State.hostLoad_of_ne_reset (h : s.run ≠ .reset) : s.hostLoad = s := if_neg (fun hw => h hw.1)

/-- With `rst` high a step is the reset, whatever the run state (R141, R260). -/
theorem step_of_rst (hrst : s.pins.rst = true) : step s = .next s.hostLoad.applyReset := if_pos hrst

/-- With `rst` low a step of an ended run is the hold (R140). -/
theorem step_of_ended (hrst : s.pins.rst = false) (h : s.Ended) : step s = .next s.clearPort := by
  rcases h with hrun | hrun <;> simp [step, hrst, hrun]

/-- Outside RESET a step under other load pins and the same `rst` is the same step. -/
theorem step_drive (hrun : s.run ≠ .reset) (h : step s = .next t) (p : HostPins) (hp : p.rst = s.pins.rst) :
    step (s.drive p) = .next (t.drive p) := by
  have hload : s.hostLoad = s := State.hostLoad_of_ne_reset hrun
  have hload' : (s.drive p).hostLoad = s.drive p := State.hostLoad_of_ne_reset hrun
  rcases hrst : s.pins.rst with _ | _
  case true =>
    rw [step_of_rst hrst, hload] at h
    cases h
    rw [step_of_rst (hp.trans hrst), hload']
    rfl
  have hrst' : (s.drive p).pins.rst = false := hp.trans hrst
  have hended (hend : s.Ended) : step (s.drive p) = .next (t.drive p) := by
    rw [step_of_ended hrst hend] at h
    cases h
    exact step_of_ended hrst' hend
  cases hs : s.run with
  | reset => exact absurd hs hrun
  | running =>
    rw [step_running hs hrst] at h
    rw [step_running (s := s.drive p) hs hrst']
    exact runCycle_drive h p
  | halted => exact hended (.inl hs)
  | faulted => exact hended (.inr hs)

/-- Settles O45. -/
theorem loadPortIsIgnoredOutsideReset : Obligations.LoadPortIsIgnoredOutsideReset :=
  fun s _ we a d hrun h => step_drive hrun h ⟨s.pins.rst, we, a, d⟩ rfl

end Sys2Proof.Machine
end

section
/-! Self-modified code: what a fetch reads after a stack store (20_memory.md R85, 70_reset_and_hazards.md R266). -/

namespace Sys2Proof

/-- Bytes that begin with an instruction's encoding decode to it. -/
theorem decodeWith_of_encode {read : Nat → Option Byte} {i : Instr}
    (h : ∀ k b, (encode i)[k]? = some b → read k = some b) : decodeWith read = .ok i := by
  have hop : read 0 = some (entryOf i.mnemonic).opcode := h 0 _ rfl
  simp only [decodeWith, hop, lookupOpcode_opcode]
  cases i with
  | hlt | ret => rfl
  | push r | pop r | prn r | call r | jmp r | jeq r | jne r =>
    rw [h 1 r rfl]
    rfl
  | ldi rA rB | add rA rB | mul rA rB | cmp rA rB =>
    rw [h 1 rA rfl, h 2 rB rfl]
    rfl

namespace Machine

variable {s t : State}

theorem fetchByte_of_lt (s : State) (k : Nat) (h : s.pc.toNat + k < 256) :
    fetchByte s k = some (s.mem.read (s.pc.toNat + k)) := if_neg (Nat.not_le.mpr h)

theorem fetchByte_of_le (s : State) (k : Nat) (h : 256 ≤ s.pc.toNat + k) : fetchByte s k = none := if_pos h

/-- A fetch after a write of memory reads the byte written in its cell, and what it read before in every other (R74, R85). -/
theorem fetchByte_of_mem_write {a v : Byte} (h : t.mem = s.mem.write a.toNat v) (k : Nat) :
    fetchByte t k =
      if t.pc.toNat + k = a.toNat then some v
      else if 256 ≤ t.pc.toNat + k then none else some (s.mem.read (t.pc.toNat + k)) := by
  have ha : a.toNat < 256 := a.isLt
  rw [fetchByte, h]
  split_ifs with hle heq heq
  · omega
  · rfl
  · rw [heq, Memory.read_write_same _ _ _ ha]
  · rw [Memory.read_write_other _ _ _ _ heq]

/-- A step whose cycle decodes an instruction that completes. -/
theorem step_of_completes {i : Instr} (hrun : s.run = .running) (hrst : s.pins.rst = false)
    (hdec : decodeWith (fetchByte s) = .ok i) (hc : Completes i s.clearPort t) : step s = .next t := by
  rw [step_running hrun hrst, runCycle_of_ok hdec, hc.exec_eq]

/-- Settles O58: the store of a completed PUSH or CALL, read by `fetchByte_of_mem_write`. -/
theorem fetchSeesStackWrites : Obligations.FetchSeesStackWrites := by
  intro r rest s hr hrun hrst hsp
  have hcell : s.regs[7].toNat - 1 = (s.reg 7 - 1).toNat := (byte_sub_one_toNat (s.reg 7) (Nat.zero_lt_of_lt hsp)).symm
  rw [hcell]
  refine ⟨fun hdec => ?_, fun hdec hpc => ?_⟩
  · have hc := Completes.push r s.clearPort hr hsp
    exact ⟨_, step_of_completes hrun hrst ((decode_bytesAtPc s _).mp ⟨rest, hdec⟩) hc,
      fun p k => fetchByte_of_mem_write rfl k⟩
  · have hc := Completes.call r s.clearPort hr hsp (Nat.lt_of_add_lt_add_right hpc)
    exact ⟨_, step_of_completes hrun hrst ((decode_bytesAtPc s _).mp ⟨rest, hdec⟩) hc,
      fun p k => fetchByte_of_mem_write rfl k⟩

/-- A PUSH into the byte after itself: the next fetch reads the register pushed (R85, R266). -/
theorem Completes.fetchByte_zero_of_push {r : Byte} (h : Completes (.push r) s t) (hr : r.toNat < 8) (hr7 : r.toNat ≠ 7)
    (hpc : s.pc.toNat + 3 = (s.reg 7).toNat) : fetchByte t 0 = some (s.reg ⟨r.toNat, hr⟩) := by
  have hlt : (s.reg 7).toNat < 256 := (s.reg 7).isLt
  have hnext : (s.advance 1).pc.toNat + 0 = (s.reg 7 - 1).toNat := by
    rw [byte_sub_one_toNat _ (by omega), State.advance_pc_toNat _ _ (by omega)]
    omega
  have hother : (7 : Fin 8) ≠ ⟨r.toNat, hr⟩ := fun h => hr7 (congrArg Fin.val h).symm
  cases h
  exact (fetchByte_of_mem_write (s := s) rfl 0).trans
    ((if_pos hnext).trans (congrArg some (State.reg_setReg_other s 7 _ _ hother)))

/-- Settles O33: the PUSH completes, and the HLT it stored at R7 - 1 = `p` + 2 is what the next step fetches. -/
theorem pushedHaltIsFetchedNext : Obligations.PushedHaltIsFetchedNext := by
  intro r s hr hrun hrst hsp hpc hop hoperand hr7 hreg
  have hlt : s.regs[7].toNat < 256 := s.regs[7].isLt
  have hpush : decodeWith (fetchByte s) = .ok (.push r) := by
    refine decodeWith_of_encode fun k b hb => ?_
    match k, hb with
    | 0, rfl => exact (fetchByte_of_lt s 0 (by omega)).trans (congrArg some hop)
    | 1, rfl => exact (fetchByte_of_lt s 1 (by omega)).trans (congrArg some hoperand)
  have hc := Completes.push r s.clearPort hr hsp
  have hhalt := decodeWith_of_encode (i := .hlt) fun k b hb => by
    match k, hb with
    | 0, rfl => exact (hc.fetchByte_zero_of_push hr hr7 hpc).trans (congrArg some hreg)
  exact ⟨_, _, step_of_completes hrun hrst hpush hc, step_of_completes hrun hrst hhalt (.hlt _), rfl,
    BitVec.add_assoc s.pc 2 1⟩

end Machine
end Sys2Proof
end

section
/-! The clock edge row by row (40_control_fsm.md R146): one equation for each row and each of its outcomes. -/

namespace Sys2Proof.Machine

variable {m : Micro}

theorem Micro.clock_of_rst (hrst : m.core.pins.rst = true) :
    m.clock = { m with core := m.core.hostLoad.applyReset, stage := .sReset } := if_pos hrst

theorem Micro.clock_of_sReset (hrst : m.core.pins.rst = false) (h : m.stage = .sReset) :
    m.clock = { m with core := m.core.hostLoad.release, stage := .sFetch } := by
  simp [Micro.clock, hrst, h]

theorem Micro.clock_of_sFetch (hrst : m.core.pins.rst = false) (h : m.stage = .sFetch) : m.clock = m.clockFetch := by
  simp [Micro.clock, hrst, h]

theorem Micro.clock_of_sOp1 (hrst : m.core.pins.rst = false) (h : m.stage = .sOp1) : m.clock = m.clockOp1 := by
  simp [Micro.clock, hrst, h]

theorem Micro.clock_of_sOp2 (hrst : m.core.pins.rst = false) (h : m.stage = .sOp2) : m.clock = m.clockOp2 := by
  simp [Micro.clock, hrst, h]

theorem Micro.clock_of_sExec (hrst : m.core.pins.rst = false) (h : m.stage = .sExec) : m.clock = m.clockExec := by
  simp [Micro.clock, hrst, h]

theorem Micro.clock_of_ended (hrst : m.core.pins.rst = false) (h : m.stage = .sHalt ∨ m.stage = .sFault) :
    m.clock = { m with core := m.core.clearPort } := by
  rcases h with h | h <;> simp [Micro.clock, hrst, h]

/-! ### The fetch states -/

theorem Micro.clockFetch_of_none (h : m.memRdata = none) : m.clockFetch = m.fault .noOpcode := by
  rw [Micro.clockFetch, h]

theorem Micro.clockFetch_of_unknown {op : Byte} (h : m.memRdata = some op) (hd : decoderOutputs op = none) :
    m.clockFetch = m.fault (.unknownOpcode op) := by
  simp [Micro.clockFetch, h, hd]

theorem Micro.clockFetch_of_some {op : Byte} {d : DecoderOutputs} (h : m.memRdata = some op)
    (hd : decoderOutputs op = some d) :
    m.clockFetch =
      { m with core := m.core.clearPort, ir := op, dec := some d, stage := if d.nOps = 0 then .sExec else .sOp1 } := by
  simp [Micro.clockFetch, h, hd]

theorem Micro.clockOp1_of_none (h : m.memRdata = none) : m.clockOp1 = m.fault (.missingOperand m.ir 1) := by
  rw [Micro.clockOp1, h]

theorem Micro.clockOp1_of_some {b : Byte} (h : m.memRdata = some b) :
    m.clockOp1 = { m with core := m.core.clearPort, o1 := b, stage := if m.nOps = 2 then .sOp2 else .sExec } := by
  rw [Micro.clockOp1, h]

theorem Micro.clockOp2_of_none (h : m.memRdata = none) : m.clockOp2 = m.fault (.missingOperand m.ir 2) := by
  rw [Micro.clockOp2, h]

theorem Micro.clockOp2_of_some {b : Byte} (h : m.memRdata = some b) :
    m.clockOp2 = { m with core := m.core.clearPort, o2 := b, stage := .sExec } := by
  rw [Micro.clockOp2, h]

@[simp] theorem Micro.fault_stage (m : Micro) (e : DecodeError) : (m.fault e).stage = .sFault := rfl
@[simp] theorem Micro.fault_ir (m : Micro) (e : DecodeError) : (m.fault e).ir = m.ir := rfl
@[simp] theorem Micro.fault_dec (m : Micro) (e : DecodeError) : (m.fault e).dec = m.dec := rfl
@[simp] theorem Micro.fault_mem (m : Micro) (e : DecodeError) : (m.fault e).core.mem = m.core.mem := by cases e <;> rfl

/-! ### S_EXEC -/

/-- The latched instruction where the outputs `d` are latched (R145). -/
def Micro.latched (m : Micro) (d : DecoderOutputs) : Instr := buildInstr d.opSel m.o1 m.o2

/-- The state the execute unit runs on: of memory only what `mem_rdata` shows (R79). -/
def Micro.execView (m : Micro) : State := { m.core.clearPort with mem := readView m.memPort m.memRdata }

@[simp] theorem Micro.execView_mem (m : Micro) : m.execView.mem = readView m.memPort m.memRdata := rfl

theorem Micro.clockExec_of_none (h : m.dec = none) : m.clockExec = m.fault (.unknownOpcode m.ir) := by
  rw [Micro.clockExec, h]

theorem Micro.clockExec_of_exec {d : DecoderOutputs} {t : State} (hd : m.dec = some d)
    (h : exec (m.latched d) m.execView = .next t) :
    m.clockExec =
      { m with core := { t with mem := arrayAtEdge m.core.mem m.memPort }, stage := execSuccessor d t } := by
  unfold Micro.latched Micro.execView at h
  simp only [Micro.clockExec, hd, h]

/-- No instruction stops the model. -/
theorem exec_next (i : Instr) (s : State) : ∃ t, exec i s = .next t := by
  rcases completes_or_raises i s with ⟨t, h⟩ | ⟨r, h⟩
  · exact ⟨t, h.exec_eq⟩
  · exact ⟨_, h.exec_eq⟩

end Sys2Proof.Machine
end

section
/-! What the memory port carries to and from the array (20_memory.md R76 to R80). -/

namespace Sys2Proof.Machine

variable {m : Micro}

/-! ### The access on the port, by the state that grants it -/

theorem Micro.memPort_of_sReset (h : m.stage = .sReset) :
    m.memPort = if m.core.pins.loadWe = true then some (.write m.core.pins.loadAddr m.core.pins.loadData) else none := by
  simp [Micro.memPort, h, MicroStage.granted]

theorem Micro.memPort_of_fetch (hrst : m.core.pins.rst = false) (hg : m.stage.granted = some .fetchUnit) :
    m.memPort = fetchAccess m.core m.stage.fetchOffset := by
  simp [Micro.memPort, hg, hrst]

theorem Micro.memPort_of_sExec (hrst : m.core.pins.rst = false) (h : m.stage = .sExec) :
    m.memPort = m.dec.bind fun d => stackAccess (m.latched d) m.core := by
  cases hd : m.dec <;> simp [Micro.memPort, h, MicroStage.granted, hrst, hd, Micro.latched]

theorem Micro.memPort_of_ended (h : m.stage = .sHalt ∨ m.stage = .sFault) : m.memPort = none := by
  rcases h with h | h <;> simp [Micro.memPort, h, MicroStage.granted]

/-- Only the load port has an access while `rst` is high (R141; log 20). -/
theorem Micro.memPort_of_rst (hrst : m.core.pins.rst = true) (h : m.stage ≠ .sReset) : m.memPort = none := by
  cases hs : m.stage with
  | sReset => exact absurd hs h
  | _ => simp [Micro.memPort, hs, MicroStage.granted, hrst]

/-! ### Another array behind the port -/

theorem Micro.fault_withMem (m : Micro) (mem : Memory) (e : DecodeError) :
    (m.withMem mem).fault e = (m.fault e).withMem mem := by
  cases e <;> rfl

/-- An edge of a fetch state over another array that answers the same is the same edge, the array left as it was. -/
theorem Micro.clock_withMem_of_fetch {mem : Memory} (hrst : m.core.pins.rst = false)
    (hg : m.stage.granted = some .fetchUnit) (h : (m.withMem mem).memRdata = m.memRdata) :
    (m.withMem mem).clock = m.clock.withMem mem := by
  have hrst' : (m.withMem mem).core.pins.rst = false := hrst
  cases hs : m.stage with
  | sFetch =>
    rw [Micro.clock_of_sFetch hrst' hs, Micro.clock_of_sFetch hrst hs]
    rcases hrd : m.memRdata with _ | op
    · rw [Micro.clockFetch_of_none (h.trans hrd), Micro.clockFetch_of_none hrd, Micro.fault_withMem]
    rcases hd : decoderOutputs op with _ | d
    · rw [Micro.clockFetch_of_unknown (h.trans hrd) hd, Micro.clockFetch_of_unknown hrd hd, Micro.fault_withMem]
    · rw [Micro.clockFetch_of_some (h.trans hrd) hd, Micro.clockFetch_of_some hrd hd]
      rfl
  | sOp1 =>
    rw [Micro.clock_of_sOp1 hrst' hs, Micro.clock_of_sOp1 hrst hs]
    rcases hrd : m.memRdata with _ | b
    · rw [Micro.clockOp1_of_none (h.trans hrd), Micro.clockOp1_of_none hrd]
      exact m.fault_withMem mem _
    · rw [Micro.clockOp1_of_some (h.trans hrd), Micro.clockOp1_of_some hrd]
      rfl
  | sOp2 =>
    rw [Micro.clock_of_sOp2 hrst' hs, Micro.clock_of_sOp2 hrst hs]
    rcases hrd : m.memRdata with _ | b
    · rw [Micro.clockOp2_of_none (h.trans hrd), Micro.clockOp2_of_none hrd]
      exact m.fault_withMem mem _
    · rw [Micro.clockOp2_of_some (h.trans hrd), Micro.clockOp2_of_some hrd]
      rfl
  | _ => rw [hs] at hg; cases hg

theorem Micro.execView_withMem {mem : Memory} (h : (m.withMem mem).memRdata = m.memRdata) :
    (m.withMem mem).execView = m.execView := by
  rw [Micro.execView, Micro.memPort_withMem, h]
  rfl

/-- The edge of S_EXEC runs the instruction on the read data alone. -/
theorem Micro.clockExec_withMem {mem : Memory} (h : (m.withMem mem).memRdata = m.memRdata) :
    (m.withMem mem).clockExec.withMem m.clockExec.core.mem = m.clockExec := by
  rcases hd : m.dec with _ | d
  · rw [Micro.clockExec_of_none (m := m.withMem mem) hd, Micro.clockExec_of_none hd, Micro.fault_withMem]
    rfl
  · obtain ⟨t, ht⟩ := exec_next (m.latched d) m.execView
    have ht' : exec ((m.withMem mem).latched d) (m.withMem mem).execView = .next t := by
      rw [Micro.execView_withMem h]
      exact ht
    rw [Micro.clockExec_of_exec (m := m.withMem mem) hd ht', Micro.clockExec_of_exec hd ht]
    rfl

/-- Settles O57, row by row of R146: the load port and the hold read no memory, the other rows `mem_rdata` alone. -/
theorem onlyReadDataReachesTheCore : Obligations.OnlyReadDataReachesTheCore := by
  intro m mem h
  rcases hrst : m.core.pins.rst with _ | _
  case true =>
    rw [Micro.clock_of_rst (m := m.withMem mem) hrst, Micro.clock_of_rst hrst, (m.withMem mem).core.hostLoad_eq,
      m.core.hostLoad_eq]
    rfl
  have hrst' : (m.withMem mem).core.pins.rst = false := hrst
  cases hs : m.stage with
  | sReset =>
    rw [Micro.clock_of_sReset hrst' hs, Micro.clock_of_sReset hrst hs, (m.withMem mem).core.hostLoad_eq,
      m.core.hostLoad_eq]
    rfl
  | sFetch | sOp1 | sOp2 =>
    have hg : m.stage.granted = some .fetchUnit := by rw [hs]; rfl
    rw [Micro.clock_withMem_of_fetch hrst hg h]
    rfl
  | sExec =>
    rw [Micro.clock_of_sExec hrst' hs, Micro.clock_of_sExec hrst hs]
    exact Micro.clockExec_withMem h
  | sHalt =>
    rw [Micro.clock_of_ended hrst' (.inl hs), Micro.clock_of_ended hrst (.inl hs)]
    rfl
  | sFault =>
    rw [Micro.clock_of_ended hrst' (.inr hs), Micro.clock_of_ended hrst (.inr hs)]
    rfl

/-! ### Memory after the edge -/

/-- In S_RESET the load port's write is the port's (R76, R80). -/
theorem Micro.hostLoad_mem_of_sReset (hrun : m.core.run = .reset) (h : m.stage = .sReset) :
    m.core.hostLoad.mem = arrayAtEdge m.core.mem m.memPort := by
  rw [Micro.memPort_of_sReset h]
  rcases m.core.hostLoad_cases with ⟨-, hwe, hload⟩ | ⟨hno, hload⟩
  · rw [hload, if_pos hwe]
    rfl
  · rw [hload, if_neg fun hwe => hno ⟨hrun, hwe⟩]
    rfl

/-- An edge of a fetch state leaves memory alone. -/
theorem Micro.clock_mem_of_fetch (hrst : m.core.pins.rst = false) (hg : m.stage.granted = some .fetchUnit) :
    m.clock.core.mem = m.core.mem := by
  have hself : m.clock = m.clock.withMem m.core.mem := Micro.clock_withMem_of_fetch hrst hg rfl
  rw [hself]
  rfl

/-- The edge of S_EXEC gives the array the port's write. -/
theorem Micro.clock_mem_of_sExec (hrst : m.core.pins.rst = false) (h : m.stage = .sExec) :
    m.clock.core.mem = arrayAtEdge m.core.mem m.memPort := by
  rw [Micro.clock_of_sExec hrst h]
  rcases hd : m.dec with _ | d
  · rw [Micro.clockExec_of_none hd, Micro.fault_mem, Micro.memPort_of_sExec hrst h, hd]
    rfl
  · obtain ⟨t, ht⟩ := exec_next (m.latched d) m.execView
    rw [Micro.clockExec_of_exec hd ht]

/-- The array after any edge is the array with the port's write. -/
theorem Micro.clock_mem (hrun : m.stage.runState = m.core.run) :
    m.clock.core.mem = arrayAtEdge m.core.mem m.memPort := by
  rcases hrst : m.core.pins.rst with _ | _
  case true =>
    rw [Micro.clock_of_rst hrst, State.applyReset_mem]
    by_cases hs : m.stage = .sReset
    · exact Micro.hostLoad_mem_of_sReset (by rw [← hrun, hs]; rfl) hs
    · have hne : m.core.run ≠ .reset := by
        rw [← hrun]
        revert hs
        cases m.stage <;> decide
      rw [State.hostLoad_of_ne_reset hne, Micro.memPort_of_rst hrst hs, arrayAtEdge_none]
  cases hs : m.stage with
  | sReset =>
    rw [Micro.clock_of_sReset hrst hs, State.release_mem]
    exact Micro.hostLoad_mem_of_sReset (by rw [← hrun, hs]; rfl) hs
  | sFetch | sOp1 | sOp2 =>
    have hg : m.stage.granted = some .fetchUnit := by rw [hs]; rfl
    rw [Micro.clock_mem_of_fetch hrst hg, Micro.memPort_of_fetch hrst hg, arrayAtEdge_fetchAccess]
  | sExec => exact Micro.clock_mem_of_sExec hrst hs
  | sHalt => rw [Micro.clock_of_ended hrst (.inl hs), Micro.memPort_of_ended (.inl hs)]; rfl
  | sFault => rw [Micro.clock_of_ended hrst (.inr hs), Micro.memPort_of_ended (.inr hs)]; rfl

/-- Settles O55. -/
theorem memoryPortCarriesEveryWrite : Obligations.MemoryPortCarriesEveryWrite := by
  intro m hrun
  rw [Micro.clock_mem hrun]
  rcases m.memPort with _ | _ | _ <;> rfl

/-! ### Read data -/

/-- A fetch state whose address is not in memory: no access, no read data, and the edge faults (R77, R146). -/
theorem Micro.clock_of_fetch_le (hrst : m.core.pins.rst = false) (hg : m.stage.granted = some .fetchUnit)
    (hle : 256 ≤ m.core.pc.toNat + m.stage.fetchOffset) :
    m.memPort = none ∧ m.memRdata = none ∧ m.clock.stage = .sFault := by
  have hport : m.memPort = none := (Micro.memPort_of_fetch hrst hg).trans (if_pos hle)
  have hrd : m.memRdata = none := (m.memRdata_of_fetch hg hrst).trans (fetchByte_of_le _ _ hle)
  refine ⟨hport, hrd, ?_⟩
  cases hs : m.stage with
  | sFetch => rw [Micro.clock_of_sFetch hrst hs, Micro.clockFetch_of_none hrd, Micro.fault_stage]
  | sOp1 => rw [Micro.clock_of_sOp1 hrst hs, Micro.clockOp1_of_none hrd, Micro.fault_stage]
  | sOp2 => rw [Micro.clock_of_sOp2 hrst hs, Micro.clockOp2_of_none hrd, Micro.fault_stage]
  | _ => rw [hs] at hg; cases hg

/-- The opcode byte's own latches after the S_FETCH edge: taken where the byte has an entry, left alone where it has none
(R145, R146; log 19). -/
theorem Micro.clock_of_opcode {b : Byte} (hrst : m.core.pins.rst = false) (hs : m.stage = .sFetch)
    (hrd : m.memRdata = some b) :
    ((lookupOpcode b).isSome = true → m.clock.ir = b ∧ m.clock.dec = decoderOutputs b) ∧
      (lookupOpcode b = none → m.clock.stage = .sFault ∧ m.clock.ir = m.ir ∧ m.clock.dec = m.dec) := by
  rw [Micro.clock_of_sFetch hrst hs]
  constructor
  · intro hb
    obtain ⟨e, he⟩ := Option.isSome_iff_exists.mp hb
    have hd : decoderOutputs b = some (entryOutputs e) := congrArg (Option.map entryOutputs) he
    rw [Micro.clockFetch_of_some hrd hd, hd]
    exact ⟨rfl, rfl⟩
  · intro hb
    rw [Micro.clockFetch_of_unknown hrd ((decoderOutputs_eq_none b).mpr hb)]
    exact ⟨rfl, rfl, rfl⟩

/-- In S_EXEC an instruction that requests a byte has it on `mem_rdata`, and its rule reads that byte. -/
theorem Micro.memRdata_of_stackRead {d : DecoderOutputs} {a : Byte} (hrst : m.core.pins.rst = false)
    (hs : m.stage = .sExec) (hd : m.dec = some d) (ha : stackAccess (m.latched d) m.core = some (.read a)) :
    m.memRdata = some (m.core.mem.read a.toNat) ∧ m.execView.mem.read a.toNat = m.core.mem.read a.toNat := by
  have hport : m.memPort = some (.read a) := by rw [Micro.memPort_of_sExec hrst hs, hd, Option.bind_some, ha]
  have hrd : m.memRdata = some (m.core.mem.read a.toNat) := by rw [Micro.memRdata, hport, arrayRdata_read]
  refine ⟨hrd, ?_⟩
  rw [Micro.execView_mem, hport, hrd, read_readView]

/-- A completed POP into R0 to R6 leaves the byte at R7 in its register (R184). -/
theorem Completes.reg_of_pop {r : Byte} {s t : State} (h : Completes (.pop r) s t) (hr : r.toNat < 7) (j : Fin 8)
    (hj : j.val = r.toNat) : t.reg j = s.mem.read (s.reg 7).toNat := by
  have h7 : (7 : Fin 8) ≠ j := fun h => by subst h; exact absurd hj (Nat.ne_of_gt hr)
  cases h with
  | pop _ _ hr8 =>
    obtain rfl : j = ⟨r.toNat, hr8⟩ := Fin.ext hj
    rw [State.advance_reg, State.reg_setReg_other _ 7 _ _ h7, State.reg_setReg_same]

/-- Settles O56. -/
theorem readDataReachesLatchesAndRegisters : Obligations.ReadDataReachesLatchesAndRegisters := by
  intro m hrst
  refine ⟨fun hg => ⟨fun hlt => ?_, Micro.clock_of_fetch_le hrst hg⟩, fun hs hsp => ⟨fun hd => ?_, fun hd hr => ?_⟩⟩
  · have hrd := (m.memRdata_of_fetch hg hrst).trans (fetchByte_of_lt _ _ hlt)
    refine ⟨_, hrd, rfl, fun hs => (Micro.clock_of_opcode hrst hs hrd).1,
      fun hs => (Micro.clock_of_opcode hrst hs hrd).2,
      fun hs => ?_, fun hs => ?_⟩
    · rw [Micro.clock_of_sOp1 hrst hs, Micro.clockOp1_of_some hrd]
    · rw [Micro.clock_of_sOp2 hrst hs, Micro.clockOp2_of_some hrd]
  · have ha : stackAccess .ret m.core = some (.read (m.core.reg 7)) := by
      rw [stackAccess, popBound_of_lt _ hsp]
    obtain ⟨hrd, hview⟩ := Micro.memRdata_of_stackRead hrst hs hd ha
    refine ⟨_, hrd, rfl, ?_⟩
    rw [Micro.clock_of_sExec hrst hs, Micro.clockExec_of_exec hd (Completes.ret m.execView hsp).exec_eq]
    exact congrArg zext9 hview
  · have hr8 : m.o1.toNat < 8 := Nat.lt_succ_of_lt hr
    have ha : stackAccess (.pop m.o1) m.core = some (.read (m.core.reg 7)) := by
      rw [stackAccess, checkReg_of_lt _ hr8, popBound_of_lt _ hsp]
    obtain ⟨hrd, hview⟩ := Micro.memRdata_of_stackRead hrst hs hd ha
    refine ⟨_, hrd, rfl, fun j hj => ?_⟩
    have hc := Completes.pop m.o1 m.execView hr8 hsp
    rw [Micro.clock_of_sExec hrst hs, Micro.clockExec_of_exec hd hc.exec_eq]
    exact (hc.reg_of_pop hr j hj).trans hview

end Sys2Proof.Machine
end

section
/-! The decoder and the encoder (30_encoding.md R100 to R106): what decodes, and which opcode byte is rejected. -/

namespace Sys2Proof

/-! ### The bytes of a decoded instruction -/

/-- An instruction is built from the operand bytes its row declares, and from no other (R101). -/
@[simp] theorem operands_buildInstr (m : Mnemonic) (o1 o2 : Byte) :
    (buildInstr m o1 o2).operands = [o1, o2].take (entryOf m).nOps := by
  cases m <;> rfl

@[simp] theorem encode_buildInstr (m : Mnemonic) (o1 o2 : Byte) :
    encode (buildInstr m o1 o2) = (entryOf m).opcode :: [o1, o2].take (entryOf m).nOps := by
  simp [encode]

theorem length_encode (i : Instr) : (encode i).length = i.length := Nat.add_comm ..

/-- A decoded instruction's encoding has been read, byte by byte: the converse of `decodeWith_of_encode`. -/
theorem read_of_decodeWith_ok {read : Nat → Option Byte} {i : Instr} (h : decodeWith read = .ok i) {k : Nat} {b : Byte}
    (hb : (encode i)[k]? = some b) : read k = some b := by
  unfold decodeWith at h
  split at h
  · cases h
  next op h0 =>
  split at h
  · cases h
  next e he =>
  obtain ⟨hrow, rfl⟩ := lookupOpcode_eq_some op e he
  split at h
  next hn =>
    cases h
    rw [encode_buildInstr, ← hrow, hn] at hb
    match k, hb with
    | 0, rfl => exact h0
  split at h
  · cases h
  next o1 h1 =>
  split at h
  next hn =>
    cases h
    rw [encode_buildInstr, ← hrow, hn] at hb
    match k, hb with
    | 0, rfl => exact h0
    | 1, rfl => exact h1
  split at h
  · cases h
  next hn0 hn1 o2 h2 =>
  cases h
  have hle : e.nOps ≤ 2 := hrow ▸ entryOf_nOps_le e.mnemonic
  rw [encode_buildInstr, ← hrow, show e.nOps = 2 by omega] at hb
  match k, hb with
  | 0, rfl => exact h0
  | 1, rfl => exact h1
  | 2, rfl => exact h2

/-- The fetch and decode of a list answer an instruction exactly when the list begins with its encoding. -/
theorem decodeWith_getElem?_eq_ok {bytes : List Byte} {i : Instr} :
    decodeWith (fun k => bytes[k]?) = .ok i ↔ encode i <+: bytes := by
  rw [List.prefix_iff_getElem?]
  constructor
  · intro h k hk
    exact read_of_decodeWith_ok h (List.getElem?_eq_getElem hk)
  · intro h
    refine decodeWith_of_encode fun k b hb => ?_
    obtain ⟨hk, rfl⟩ := List.getElem?_eq_some_iff.mp hb
    exact h k hk

theorem decode_eq_ok {bytes rest : List Byte} {i : Instr} :
    decode bytes = .ok (i, rest) ↔ decodeWith (fun k => bytes[k]?) = .ok i ∧ bytes.drop i.length = rest := by
  unfold decode
  cases decodeWith (fun k => bytes[k]?) with
  | error e => simp
  | ok j =>
    simp only [Except.ok.injEq, Prod.mk.injEq]
    exact and_congr_right fun hji => by rw [hji]

/-- Settles O2: a decoded list begins with the encoding, and what is left over is the list without it. -/
theorem decodeInvertsEncode : Obligations.DecodeInvertsEncode := by
  intro bytes rest i
  rw [decode_eq_ok, decodeWith_getElem?_eq_ok, ← length_encode]
  constructor
  · rintro ⟨hbegin, rfl⟩
    exact List.prefix_iff_eq_append.mp hbegin |>.symm
  · rintro rfl
    exact ⟨List.prefix_append _ _, List.drop_left⟩

/-- Decoding an encoding leaves no byte over. -/
theorem decode_encode (i : Instr) : decode (encode i) = .ok (i, []) :=
  (decodeInvertsEncode _ _ i).mpr (List.append_nil _).symm

/-- Settles O1: the bytes written out are the encodings. -/
theorem writtenWordsDecode : Obligations.WrittenWordsDecode :=
  ⟨decode_encode .hlt, decode_encode .ret, decode_encode (.push 2), decode_encode (.pop 3), decode_encode (.prn 0),
    decode_encode (.call 1), decode_encode (.jmp 0xFF), decode_encode (.jeq 4), decode_encode (.jne 5),
    decode_encode (.ldi 0 8), decode_encode (.add 1 2), decode_encode (.mul 3 4), decode_encode (.cmp 5 6)⟩

/-- Settles O4, row by row of the decode table. -/
theorem decoderOutputsFollowTable : Obligations.DecoderOutputsFollowTable := by
  intro m
  cases m <;> decide

/-! ### Unknown opcodes -/

/-- A byte has no entry exactly when it is no row's opcode (R106). -/
theorem lookupOpcode_eq_none {op : Byte} :
    lookupOpcode op = none ↔ op ∉ decodeTable.map (fun e => e.opcode) := by
  simp [lookupOpcode]

/-- An opcode byte without an entry is rejected before any operand is read (R133). -/
theorem decodeWith_of_unknown {read : Nat → Option Byte} {op : Byte} (h0 : read 0 = some op)
    (hop : lookupOpcode op = none) : decodeWith read = .error (.unknownOpcode op) := by
  simp only [decodeWith, h0, hop]

/-- Only a byte without an entry is rejected as an unknown opcode. -/
theorem lookupOpcode_of_decodeWith_unknown {read : Nat → Option Byte} {op : Byte}
    (h : decodeWith read = .error (.unknownOpcode op)) : lookupOpcode op = none := by
  rcases decodeWith_error h with ⟨he, -⟩ | ⟨op', he, hop⟩ | ⟨op', k, b, he, -⟩ <;> cases he
  exact hop

theorem decode_eq_error {bytes : List Byte} {e : DecodeError} :
    decode bytes = .error e ↔ decodeWith (fun k => bytes[k]?) = .error e := by
  unfold decode
  cases decodeWith (fun k => bytes[k]?) <;> simp

/-- Settles O3: the thirteen bytes are the table's column of opcodes. -/
theorem onlyThirteenOpcodesDecode : Obligations.OnlyThirteenOpcodesDecode := by
  intro op rest
  rw [decode_eq_error]
  exact Iff.trans ⟨lookupOpcode_of_decodeWith_unknown, decodeWith_of_unknown rfl⟩ lookupOpcode_eq_none

namespace Machine

/-- Settles O38: the fetch unit reads the byte at `pc`, and its rejection is the fault entry of R235. -/
theorem unknownOpcodeFaults : Obligations.UnknownOpcodeFaults := by
  intro s hrun hrst hpc hop
  have hfetch : fetchByte s 0 = some (s.mem.read s.pc.toNat) := fetchByte_of_lt s 0 hpc
  rw [step_running hrun hrst,
    runCycle_of_error (decodeWith_of_unknown hfetch (lookupOpcode_eq_none.mpr hop))]
  rfl

end Machine
end Sys2Proof
end

section
/-! The latched decoder outputs (40_control_fsm.md R145, R146): each row of the clock edge keeps the agreement with `IR`. -/

namespace Sys2Proof.Machine

variable {m : Micro}

/-- Outside the operand and execute states nothing is asked of the latches. -/
theorem Micro.latchesAgree_of_stage (h1 : m.stage ≠ .sOp1) (h2 : m.stage ≠ .sOp2) (h3 : m.stage ≠ .sExec) :
    m.LatchesAgree := by
  refine ⟨fun h => ?_, fun h => absurd h h1, fun h => absurd h h2⟩
  rcases h with h | h | h
  · exact absurd h h1
  · exact absurd h h2
  · exact absurd h h3

theorem Micro.latchesAgree_fault (m : Micro) (e : DecodeError) : (m.fault e).LatchesAgree :=
  Micro.latchesAgree_of_stage nofun nofun nofun

/-- In S_EXEC the decoder outputs are those of `IR`, and no operand count is asked. -/
theorem Micro.latchesAgree_of_sExec (hs : m.stage = .sExec)
    (h : m.dec = decoderOutputs m.ir ∧ (lookupOpcode m.ir).isSome = true) : m.LatchesAgree :=
  ⟨fun _ => h, by simp [hs], by simp [hs]⟩

/-- S_FETCH latches `IR` and its decoder outputs together, and goes to S_OP1 only for an instruction with operands. -/
theorem Micro.latchesAgree_clockFetch (m : Micro) : m.clockFetch.LatchesAgree := by
  rcases hrd : m.memRdata with _ | op
  · rw [Micro.clockFetch_of_none hrd]
    exact m.latchesAgree_fault _
  rcases hd : decoderOutputs op with _ | d
  · rw [Micro.clockFetch_of_unknown hrd hd]
    exact m.latchesAgree_fault _
  have hop : (lookupOpcode op).isSome = true := by
    obtain ⟨e, he, -⟩ := Option.map_eq_some_iff.mp hd
    exact Option.isSome_of_eq_some he
  rw [Micro.clockFetch_of_some hrd hd]
  rcases Nat.eq_zero_or_pos d.nOps with hn | hn
  · exact Micro.latchesAgree_of_sExec (if_pos hn) ⟨hd.symm, hop⟩
  · rw [if_neg (Nat.ne_of_gt hn)]
    exact ⟨fun _ => ⟨hd.symm, hop⟩, fun _ => hn, nofun⟩

/-- S_OP1 goes to S_OP2 only for an instruction with two operands. -/
theorem Micro.latchesAgree_clockOp1 (h : m.dec = decoderOutputs m.ir ∧ (lookupOpcode m.ir).isSome = true) :
    m.clockOp1.LatchesAgree := by
  rcases hrd : m.memRdata with _ | b
  · rw [Micro.clockOp1_of_none hrd]
    exact m.latchesAgree_fault _
  rw [Micro.clockOp1_of_some hrd]
  by_cases hn : m.nOps = 2
  · rw [if_pos hn]
    exact ⟨fun _ => h, nofun, fun _ => hn⟩
  · exact Micro.latchesAgree_of_sExec (if_neg hn) h

theorem Micro.latchesAgree_clockOp2 (h : m.dec = decoderOutputs m.ir ∧ (lookupOpcode m.ir).isSome = true) :
    m.clockOp2.LatchesAgree := by
  rcases hrd : m.memRdata with _ | b
  · rw [Micro.clockOp2_of_none hrd]
    exact m.latchesAgree_fault _
  · rw [Micro.clockOp2_of_some hrd]
    exact Micro.latchesAgree_of_sExec rfl h

/-- The cycle is over after S_EXEC (R146). -/
theorem execSuccessor_cases (d : DecoderOutputs) (t : State) :
    execSuccessor d t = .sFault ∨ execSuccessor d t = .sHalt ∨ execSuccessor d t = .sFetch := by
  unfold execSuccessor
  split_ifs <;> simp

theorem Micro.latchesAgree_clockExec (m : Micro) : m.clockExec.LatchesAgree := by
  rcases hd : m.dec with _ | d
  · rw [Micro.clockExec_of_none hd]
    exact m.latchesAgree_fault _
  · obtain ⟨t, ht⟩ := exec_next (m.latched d) m.execView
    rw [Micro.clockExec_of_exec hd ht]
    rcases execSuccessor_cases d t with hs | hs | hs <;> rw [hs] <;> exact Micro.latchesAgree_of_stage nofun nofun nofun

/-- Every clock edge keeps the agreement, row by row of R146. -/
theorem Micro.LatchesAgree.clock (h : m.LatchesAgree) : m.clock.LatchesAgree := by
  obtain ⟨hlatched, -⟩ := h
  rcases hrst : m.core.pins.rst with _ | _
  case true =>
    rw [Micro.clock_of_rst hrst]
    exact Micro.latchesAgree_of_stage nofun nofun nofun
  cases hs : m.stage with
  | sReset =>
    rw [Micro.clock_of_sReset hrst hs]
    exact Micro.latchesAgree_of_stage nofun nofun nofun
  | sFetch =>
    rw [Micro.clock_of_sFetch hrst hs]
    exact m.latchesAgree_clockFetch
  | sOp1 =>
    rw [Micro.clock_of_sOp1 hrst hs]
    exact Micro.latchesAgree_clockOp1 (hlatched (.inl hs))
  | sOp2 =>
    rw [Micro.clock_of_sOp2 hrst hs]
    exact Micro.latchesAgree_clockOp2 (hlatched (.inr (.inl hs)))
  | sExec =>
    rw [Micro.clock_of_sExec hrst hs]
    exact m.latchesAgree_clockExec
  | sHalt | sFault =>
    rw [Micro.clock_of_ended hrst (by simp [hs])]
    exact Micro.latchesAgree_of_stage (by simp [hs]) (by simp [hs]) (by simp [hs])

/-- Settles O59. -/
theorem decoderLatchFollowsOpcodeLatch : Obligations.DecoderLatchFollowsOpcodeLatch :=
  ⟨fun _ => Micro.latchesAgree_of_stage, fun _ => Micro.LatchesAgree.clock⟩

end Sys2Proof.Machine
end

section
/-! The assembler reads what it writes (30_encoding.md R110): digits, then operands, then the whole text. -/

namespace Sys2Proof.Machine

/-! ### Digits -/

theorem digitChar_toNat {d : Nat} (h : d < 10) : (digitChar d).toNat = 48 + d := by
  revert d
  decide

theorem digitValue_digitChar {base d : Nat} (hd : d < 10) (hb : d < base) :
    digitValue base (digitChar d) = some d := by
  have hrange : '0'.toNat ≤ (digitChar d).toNat ∧ (digitChar d).toNat ≤ '9'.toNat := by
    rw [digitChar_toNat hd]
    exact ⟨Nat.le_add_right 48 d, by change 48 + d ≤ 57; omega⟩
  have hvalue : (digitChar d).toNat - '0'.toNat = d := by
    rw [digitChar_toNat hd]
    exact Nat.add_sub_cancel_left 48 d
  simp only [digitValue, if_pos hrange, hvalue, if_pos hb]

/-- A digit is none of the characters with a meaning of their own in a number or between operands. -/
theorem digitChar_ne {d : Nat} (h : d < 10) : digitChar d ≠ 'x' ∧ digitChar d ≠ 'b' ∧ digitChar d ≠ ',' := by
  revert d
  decide

@[simp] theorem digitsValue_nil (base acc : Nat) : digitsValue base acc [] = some acc := rfl

theorem digitsValue_cons {d : Nat} (hd : d < 10) (acc : Nat) (cs : List Char) :
    digitsValue 10 acc (digitChar d :: cs) = digitsValue 10 (acc * 10 + d) cs := by
  simp only [digitsValue, digitValue_digitChar hd hd]

theorem byteFromDigits_of_value {cs : List Char} (hcs : cs ≠ []) {v : Byte}
    (h : digitsValue 10 0 cs = some v.toNat) : byteFromDigits 10 cs = some v := by
  cases cs with
  | nil => exact absurd rfl hcs
  | cons c rest => simp [byteFromDigits, h, v.isLt]

/-! ### Immediates -/

/-- A number whose second character is neither `x` nor `b` is read in decimal (R110). -/
theorem parseImm_eq {c : Char} {cs : List Char} (h : ∀ x ∈ cs.head?, x ≠ 'x' ∧ x ≠ 'b') :
    parseImm (c :: cs) = byteFromDigits 10 (c :: cs) := by
  unfold parseImm
  split
  next heq => cases heq; simp at h
  next heq => cases heq; simp at h
  · rfl

theorem digitsValue_immText (v : Byte) : digitsValue 10 0 (immText v) = some v.toNat := by
  have hv := v.isLt
  unfold immText
  split_ifs
  · rw [digitsValue_cons (by omega), digitsValue_nil, Nat.zero_mul, Nat.zero_add]
  · rw [digitsValue_cons (by omega), digitsValue_cons (by omega), digitsValue_nil]
    congr 1
    omega
  · rw [digitsValue_cons (by omega), digitsValue_cons (by omega), digitsValue_cons (by omega), digitsValue_nil]
    congr 1
    omega

/-- After its first digit a decimal number has none, or another digit. -/
theorem immText_eq_cons (v : Byte) :
    ∃ c cs, immText v = c :: cs ∧ ∀ x ∈ cs.head?, x ≠ 'x' ∧ x ≠ 'b' := by
  have hv := v.isLt
  have hdigit {d : Nat} (hd : d < 10) : digitChar d ≠ 'x' ∧ digitChar d ≠ 'b' := by
    obtain ⟨hx, hb, -⟩ := digitChar_ne hd
    exact ⟨hx, hb⟩
  unfold immText
  split_ifs
  · exact ⟨_, _, rfl, by simp⟩
  · exact ⟨_, _, rfl, by simpa using hdigit (show v.toNat % 10 < 10 by omega)⟩
  · exact ⟨_, _, rfl, by simpa using hdigit (show v.toNat / 10 % 10 < 10 by omega)⟩

/-- A byte written in decimal is read back. -/
theorem parseImm_immText (v : Byte) : parseImm (immText v) = some v := by
  obtain ⟨c, cs, htext, hsecond⟩ := immText_eq_cons v
  have hvalue := digitsValue_immText v
  rw [htext] at hvalue ⊢
  rw [parseImm_eq hsecond]
  exact byteFromDigits_of_value (List.cons_ne_nil c cs) hvalue

/-! ### Registers -/

theorem regByteOk_iff {r : Byte} : regByteOk r = true ↔ r.toNat < 8 := decide_eq_true_iff

theorem regText_of_lt {r : Byte} (hr : r.toNat < 8) : regText r = ['R', digitChar r.toNat] := by
  rw [regText, immText, if_pos (by omega)]

/-- A register that exists is read back. -/
theorem parseReg_regText {r : Byte} (hr : r.toNat < 8) : parseReg (regText r) = some r := by
  rw [regText_of_lt hr]
  simp [parseReg, digitValue_digitChar (show r.toNat < 10 by omega) hr]

/-! ### Separators -/

theorem cutAt_of_notMem {sep : Char} {cs : List Char} (h : sep ∉ cs) : cutAt sep cs = (cs, none) := by
  induction cs with
  | nil => rfl
  | cons c rest ih =>
    obtain ⟨hc, hrest⟩ := List.ne_and_not_mem_of_not_mem_cons h
    rw [cutAt, if_neg (Ne.symm hc), ih hrest]

theorem cutAt_append {sep : Char} {cs : List Char} (h : sep ∉ cs) (rest : List Char) :
    cutAt sep (cs ++ sep :: rest) = (cs, some rest) := by
  induction cs with
  | nil => exact if_pos rfl
  | cons c cs ih =>
    obtain ⟨hc, hcs⟩ := List.ne_and_not_mem_of_not_mem_cons h
    rw [List.cons_append, cutAt, if_neg (Ne.symm hc), ih hcs]

/-- Two operands are read back where each of them is. -/
theorem parsePair_text {second : List Char → Option Byte} {r v : Byte} {cs : List Char} (hr : r.toNat < 8)
    (hv : second cs = some v) : parsePair second (regText r ++ ',' :: cs) = some (r, v) := by
  obtain ⟨-, -, hcomma⟩ := digitChar_ne (show r.toNat < 10 by omega)
  have hnot : ',' ∉ regText r := by simp [regText_of_lt hr, Ne.symm hcomma]
  simp [parsePair, cutAt_append hnot, parseReg_regText hr, hv]

/-! ### Instructions -/

@[simp] theorem mnemonicNamed_mnemonicText (m : Mnemonic) : mnemonicNamed (mnemonicText m) = some m := by
  cases m <;> rfl

theorem space_notMem_mnemonicText (m : Mnemonic) : ' ' ∉ mnemonicText m := by
  cases m <;> decide

/-- Format F0 (R101): a mnemonic alone has no operand field. -/
theorem parseInstr_mnemonicText {m : Mnemonic} (hm : (entryOf m).nOps = 0) :
    parseInstr (mnemonicText m) = some (buildInstr m 0 0) := by
  simp [parseInstr, cutAt_of_notMem (space_notMem_mnemonicText m), parseOperands, hm]

/-- What follows the space after a mnemonic is its operand field. -/
theorem parseInstr_field (m : Mnemonic) (field : List Char) :
    parseInstr (mnemonicText m ++ ' ' :: field) = parseOperands m (some field) := by
  simp [parseInstr, cutAt_append (space_notMem_mnemonicText m)]

/-- Format F1R (R101). -/
theorem parseInstr_reg {m : Mnemonic} {r : Byte} (hm : (entryOf m).nOps = 1) (hr : r.toNat < 8) :
    parseInstr (mnemonicText m ++ ' ' :: regText r) = some (buildInstr m r 0) := by
  simp [parseInstr_field, parseOperands, hm, parseReg_regText hr]

/-- Formats F2RR and F2RI (R101). -/
theorem parseInstr_pair {m : Mnemonic} {r v : Byte} {cs : List Char} (hm : (entryOf m).nOps = 2) (hr : r.toNat < 8)
    (hv : (if m = .ldi then parseImm else parseReg) cs = some v) :
    parseInstr (mnemonicText m ++ ' ' :: (regText r ++ ',' :: cs)) = some (buildInstr m r v) := by
  simp only [parseInstr_field, parseOperands, hm, parsePair_text hr hv, Option.map_some]

/-- The text of an instruction whose registers exist is read back, format by format. -/
theorem parseInstr_instrText {i : Instr} (h : WellFormed i = true) : parseInstr (instrText i) = some i := by
  cases i with
  | hlt => exact parseInstr_mnemonicText (m := .hlt) rfl
  | ret => exact parseInstr_mnemonicText (m := .ret) rfl
  | push r | pop r | prn r | call r | jmp r | jeq r | jne r => exact parseInstr_reg rfl (regByteOk_iff.mp h)
  | ldi r imm => exact parseInstr_pair rfl (regByteOk_iff.mp h) (parseImm_immText imm)
  | add rA rB | mul rA rB | cmp rA rB =>
    obtain ⟨ha, hb⟩ := Bool.and_eq_true_iff.mp h
    exact parseInstr_pair rfl (regByteOk_iff.mp ha) (parseReg_regText (regByteOk_iff.mp hb))

/-- Settles O5; that `SP` is R7 is an evaluation of the parser. -/
theorem assemblerReadsItsOwnText : Obligations.AssemblerReadsItsOwnText :=
  ⟨fun _ => parseInstr_instrText, rfl⟩

end Sys2Proof.Machine
end

section
/-! The fetch and decode of a cycle, outcome by outcome, and the statements about the cycle that a step in RUNNING is
(40_control_fsm.md R131 to R137). -/

namespace Sys2Proof

/-! ### What the decoder has read when it answers -/

/-- `DecodeOutcome read r`: the bytes that `decodeWith read` reads, in the order of R131, and the answer `r` they give. -/
inductive DecodeOutcome (read : Nat → Option Byte) : Except DecodeError Instr → Prop
  | noOpcode (h0 : read 0 = none) : DecodeOutcome read (.error .noOpcode)
  | unknownOpcode (op : Byte) (h0 : read 0 = some op) (hop : lookupOpcode op = none) :
      DecodeOutcome read (.error (.unknownOpcode op))
  | missingFirst (m : Mnemonic) (h0 : read 0 = some (entryOf m).opcode) (hn : (entryOf m).nOps ≠ 0)
      (h1 : read 1 = none) : DecodeOutcome read (.error (.missingOperand (entryOf m).opcode 1))
  | missingSecond (m : Mnemonic) (o1 : Byte) (h0 : read 0 = some (entryOf m).opcode) (hn : (entryOf m).nOps = 2)
      (h1 : read 1 = some o1) (h2 : read 2 = none) :
      DecodeOutcome read (.error (.missingOperand (entryOf m).opcode 2))
  | noOperand (m : Mnemonic) (h0 : read 0 = some (entryOf m).opcode) (hn : (entryOf m).nOps = 0) :
      DecodeOutcome read (.ok (buildInstr m 0 0))
  | oneOperand (m : Mnemonic) (o1 : Byte) (h0 : read 0 = some (entryOf m).opcode) (hn : (entryOf m).nOps = 1)
      (h1 : read 1 = some o1) : DecodeOutcome read (.ok (buildInstr m o1 0))
  | twoOperands (m : Mnemonic) (o1 o2 : Byte) (h0 : read 0 = some (entryOf m).opcode) (hn : (entryOf m).nOps = 2)
      (h1 : read 1 = some o1) (h2 : read 2 = some o2) : DecodeOutcome read (.ok (buildInstr m o1 o2))

/-- The bytes determine the answer. -/
theorem DecodeOutcome.decodeWith_eq {read : Nat → Option Byte} {r : Except DecodeError Instr}
    (h : DecodeOutcome read r) : decodeWith read = r := by
  cases h with
  | noOpcode h0 => simp [decodeWith, h0]
  | unknownOpcode op h0 hop => exact decodeWith_of_unknown h0 hop
  | missingFirst m h0 hn h1 => simp [decodeWith, h0, hn, h1]
  | missingSecond m o1 h0 hn h1 h2 => simp [decodeWith, h0, hn, h1, h2]
  | noOperand m h0 hn => simp [decodeWith, h0, hn]
  | oneOperand m o1 h0 hn h1 => simp [decodeWith, h0, hn, h1]
  | twoOperands m o1 o2 h0 hn h1 h2 => simp [decodeWith, h0, hn, h1, h2]

/-- Every answer of the decoder is one of the outcomes. -/
theorem decodeOutcome (read : Nat → Option Byte) : DecodeOutcome read (decodeWith read) := by
  suffices h : ∃ r, DecodeOutcome read r by
    obtain ⟨r, hr⟩ := h
    rw [hr.decodeWith_eq]
    exact hr
  rcases h0 : read 0 with _ | op
  · exact ⟨_, .noOpcode h0⟩
  rcases hop : lookupOpcode op with _ | e
  · exact ⟨_, .unknownOpcode op h0 hop⟩
  obtain ⟨hrow, rfl⟩ := lookupOpcode_eq_some op e hop
  rw [hrow] at h0
  have hle := entryOf_nOps_le e.mnemonic
  by_cases hzero : (entryOf e.mnemonic).nOps = 0
  · exact ⟨_, .noOperand _ h0 hzero⟩
  rcases h1 : read 1 with _ | o1
  · exact ⟨_, .missingFirst _ h0 hzero h1⟩
  by_cases hone : (entryOf e.mnemonic).nOps = 1
  · exact ⟨_, .oneOperand _ o1 h0 hone h1⟩
  have htwo : (entryOf e.mnemonic).nOps = 2 := by omega
  rcases h2 : read 2 with _ | o2
  · exact ⟨_, .missingSecond _ o1 h0 htwo h1 h2⟩
  · exact ⟨_, .twoOperands _ o1 o2 h0 htwo h1 h2⟩

namespace Machine

variable {s t : State}

/-! ### The decoded instruction is the one that runs -/

/-- A step in RUNNING whose fetch decodes an instruction is that instruction's meaning, the output strobe being over. -/
theorem step_of_decodeWith {i : Instr} (hrun : s.run = .running) (hrst : s.pins.rst = false)
    (hdec : decodeWith (fetchByte s) = .ok i) : step s = exec i s.clearPort := by
  rw [step_running hrun hrst, runCycle_of_ok hdec]

/-- Settles O6: the bytes from `pc` on are what the fetch unit reads. -/
theorem stepRunsDecodedInstruction : Obligations.StepRunsDecodedInstruction :=
  fun s i rest hrun hrst hdec => step_of_decodeWith hrun hrst ((decode_bytesAtPc s i).mp ⟨rest, hdec⟩)

/-- Writing bytes from `a` up leaves every cell below `a` alone. -/
theorem Memory.read_writeBytes_below (bytes : List Byte) (m : Memory) {a b : Nat} (h : b < a) :
    (m.writeBytes a bytes).read b = m.read b := by
  induction bytes generalizing m a with
  | nil => rfl
  | cons v rest ih =>
    exact (ih (m.write a v) (Nat.lt_succ_of_lt h)).trans (Memory.read_write_other m a b v (Nat.ne_of_lt h))

/-- Bytes written at ascending addresses below 256 are read back. -/
theorem Memory.read_writeBytes {bytes : List Byte} {a k : Nat} {v : Byte} (m : Memory)
    (hfit : a + bytes.length ≤ 256) (hk : bytes[k]? = some v) : (m.writeBytes a bytes).read (a + k) = v := by
  induction bytes generalizing m a k with
  | nil => cases hk
  | cons w rest ih =>
    rw [List.length_cons] at hfit
    cases k with
    | zero =>
      cases hk
      exact (Memory.read_writeBytes_below rest _ (Nat.lt_succ_self a)).trans
        (Memory.read_write_same m a v (by omega))
    | succ k =>
      rw [show a + (k + 1) = a + 1 + k by omega]
      exact ih (m.write a w) (by omega) hk

/-- A stored table word is what the next fetch reads (log 16). -/
theorem fetchByte_withFetchWord {nbits w k : Nat} {v : Byte} (hfit : s.pc.toNat + 3 ≤ 256)
    (hk : (tableBytes nbits w)[k]? = some v) : fetchByte (s.withFetchWord nbits w) k = some v := by
  have hlt : k < 3 := (List.getElem?_eq_some_iff.mp hk).1
  exact (fetchByte_of_lt (s.withFetchWord nbits w) k (show s.pc.toNat + k < 256 by omega)).trans
    (congrArg some (Memory.read_writeBytes s.mem hfit hk))

/-- A table word decodes to an instruction when the decoder reads it from the word's bytes. -/
theorem decodeWith_of_decodeTableWord {nbits w : Nat} {i : Instr} (h : decodeTableWord nbits w = some i) :
    decodeWith (fun k => (tableBytes nbits w)[k]?) = .ok i := by
  unfold decodeTableWord at h
  split at h
  · cases h
  next j rest hj =>
  cases h
  exact (decode_eq_ok.mp hj).1

/-- Settles O7: every byte of the decoded instruction is a byte of the word, which the fetch unit reads. -/
theorem storedTableWordRunsNext : Obligations.StoredTableWordRunsNext := by
  intro s nbits w i hfit hw
  have hword := decodeWith_of_decodeTableWord hw
  have hdec : decodeWith (fetchByte (s.withFetchWord nbits w)) = .ok i :=
    decodeWith_of_encode fun _ _ hb => fetchByte_withFetchWord hfit (read_of_decodeWith_ok hword hb)
  exact step_of_decodeWith rfl rfl hdec

/-! ### The next `pc` -/

/-- The advance past an instruction that lies below 256 does not wrap (R136). -/
theorem advance_pc_of_length {i : Instr} (h : s.pc.toNat + i.length ≤ 256) :
    (s.advance (entryOf i.mnemonic).nOps).pc.toNat = s.pc.toNat + 1 + (entryOf i.mnemonic).nOps := by
  rw [Instr.length, length_operands] at h
  rw [State.advance_pc_toNat _ _ (by omega), Nat.add_assoc]

/-- Settles O9: an instruction that does not end in FAULTED has completed, and each completion states its next `pc`. -/
theorem programCounterAdvancesOrJumps : Obligations.ProgramCounterAdvancesOrJumps := by
  intro i s t _ hlen h hrun
  have hadvance := advance_pc_of_length hlen
  rcases exec_cases h with hc | ⟨r, -, rfl⟩
  case inr => exact absurd rfl hrun
  cases hc with
  | ldi | prn | add | mul | push | pop | cmp | hlt => exact hadvance
  | ret => exact zext9_toNat _
  | call r _ hr | jmp r _ hr => exact ⟨hr, zext9_toNat _⟩
  | jeqTaken r _ hr hf => exact ⟨hr, (zext9_toNat _).trans (if_pos hf).symm⟩
  | jeqNotTaken r _ hr hf => exact ⟨hr, hadvance.trans (if_neg hf).symm⟩
  | jneTaken r _ hr hf => exact ⟨hr, (zext9_toNat _).trans (if_neg hf).symm⟩
  | jneNotTaken r _ hr hf => exact ⟨hr, hadvance.trans (if_pos hf).symm⟩

/-! ### Fetching at 256 -/

/-- A step in RUNNING whose fetch is rejected is the fault entry of R132 to R134, the output strobe being over. -/
theorem step_of_decodeWith_error {e : DecodeError} (hrun : s.run = .running) (hrst : s.pins.rst = false)
    (hdec : DecodeOutcome (fetchByte s) (.error e)) : step s = .next (fetchFault e s.clearPort) := by
  rw [step_running hrun hrst, runCycle_of_error hdec.decodeWith_eq]

/-- Settles O37: at 256 there is no byte to fetch, so the outcome is the missing opcode or the first missing operand. -/
theorem fetchPastMemoryFaults : Obligations.FetchPastMemoryFaults := by
  intro s hrun hrst
  refine ⟨fun hpc => ?_, fun m hpc hop => ?_⟩
  · have hnone : fetchByte s 0 = none := fetchByte_of_le s 0 (by rw [hpc]; decide)
    rw [step_of_decodeWith_error hrun hrst (.noOpcode hnone)]
    simp [fetchFault, faultEntry, memoryFault, State.clearPort, hpc]
  · have hlt : s.pc.toNat + 0 < 256 := by
      rcases hpc with ⟨hpc, -⟩ | ⟨hpc, -⟩ <;> rw [hpc] <;> decide
    have h0 : fetchByte s 0 = some (entryOf m).opcode := (fetchByte_of_lt s 0 hlt).trans (congrArg some hop)
    rcases hpc with ⟨hpc, hn⟩ | ⟨hpc, hn⟩
    · have hnone : fetchByte s 1 = none := fetchByte_of_le s 1 (by rw [hpc]; decide)
      rw [step_of_decodeWith_error hrun hrst (.missingFirst m h0 (Nat.ne_of_gt hn) hnone)]
      simp [fetchFault, faultEntry, memoryFault, State.clearPort, hpc]
    · have h1 := fetchByte_of_lt s 1 (by rw [hpc]; decide)
      have hnone : fetchByte s 2 = none := fetchByte_of_le s 2 (by rw [hpc]; decide)
      rw [step_of_decodeWith_error hrun hrst (.missingSecond m _ h0 hn h1 hnone)]
      simp [fetchFault, faultEntry, memoryFault, State.clearPort, hpc]

end Machine
end Sys2Proof
end

section
/-! The run-state machine (40_control_fsm.md R130, R138, R140) and runs under any pin levels. -/

namespace Sys2Proof.Machine

variable {i : Instr} {s t : State}

/-! ### Every step answers -/

theorem runCycle_next (s : State) : ∃ t, runCycle s = .next t := by
  cases h : decodeWith (fetchByte s) with
  | error e => exact ⟨_, runCycle_of_error h⟩
  | ok i =>
    rw [runCycle_of_ok h]
    exact exec_next i s.clearPort

/-- With `rst` low a step of RESET is the release, with the load port's write (R80, R262). -/
theorem step_of_reset (hrst : s.pins.rst = false) (hrun : s.run = .reset) : step s = .next s.hostLoad.release := by
  simp [step, hrst, hrun]

/-- Settles O8, row by row of the run-state table. -/
theorem everyStepAnswers : Obligations.EveryStepAnswers := by
  intro s
  rcases hrst : s.pins.rst with _ | _
  case true => exact ⟨_, step_of_rst hrst⟩
  cases hrun : s.run with
  | reset => exact ⟨_, step_of_reset hrst hrun⟩
  | running =>
    rw [step_running hrun hrst]
    exact runCycle_next s
  | halted => exact ⟨_, step_of_ended hrst (.inl hrun)⟩
  | faulted => exact ⟨_, step_of_ended hrst (.inr hrun)⟩

/-- No part of the invariant speaks of the pins. -/
theorem State.Inv.drive (h : s.Inv) (p : HostPins) : (s.drive p).Inv := h

theorem runInputs_cons {p : HostPins} (rest : List HostPins) (h : step (s.drive p) = .next t) :
    runInputs (p :: rest) s = runInputs rest t := by
  rw [runInputs, h]

/-- Settles O52, by induction on the pin levels. -/
theorem everyRunKeepsLegalStates : Obligations.EveryRunKeepsLegalStates := by
  intro inputs
  induction inputs with
  | nil => exact fun s hs => ⟨s, rfl, hs⟩
  | cons p rest ih =>
    intro s hs
    obtain ⟨t, ht⟩ := everyStepAnswers (s.drive p)
    rw [runInputs_cons rest ht]
    exact ih t (everyStepKeepsLegalStates _ t (hs.drive p) ht)

/-! ### HALTED and FAULTED -/

/-- Settles O26. -/
theorem hltAdvancesAndHalts : Obligations.HltAdvancesAndHalts :=
  fun s => ⟨(Completes.hlt s).exec_eq, fun hrst => step_of_ended hrst (.inl rfl)⟩

/-- Settles O42. -/
theorem endedRunHoldsItsState : Obligations.EndedRunHoldsItsState := by
  refine ⟨fun s hend hrst => step_of_ended hrst hend, fun m hs => ⟨?_, Micro.memPort_of_ended hs⟩⟩
  rcases hs with hs | hs <;> rw [hs] <;> rfl

/-! ### The rows of the table -/

/-- A completed instruction of a running state leaves it running, HLT alone halts it. -/
theorem Completes.run_of_running (h : Completes i s t) (hrun : s.run = .running) :
    (i = .hlt ∧ t.run = .halted) ∨ (i ≠ .hlt ∧ t.run = .running) := by
  cases h with
  | hlt => exact .inl ⟨rfl, rfl⟩
  | _ => exact .inr ⟨nofun, hrun⟩

/-- A raise always has a cause. -/
theorem Raises.cause_ne_none {r : Raised} (h : Raises i s r) : r.cause ≠ .none := by
  cases h <;> exact nofun

theorem fetchFault_run (e : DecodeError) (s : State) : (fetchFault e s).run = .faulted := by
  cases e <;> rfl

theorem fetchFault_fcause_ne_none (e : DecodeError) (s : State) : (fetchFault e s).fcause ≠ .none := by
  cases e <;> exact nofun

/-- How a cycle of a running state can end: RUNNING or, for a HLT, HALTED with the record as it was, or FAULTED with a
cause. -/
theorem runCycle_run_cases (hrun : s.run = .running) (h : runCycle s = .next t) :
    (t.run = .running ∧ decodeWith (fetchByte s) ≠ .ok .hlt ∧ t.fcause = s.fcause) ∨
      (t.run = .halted ∧ decodeWith (fetchByte s) = .ok .hlt ∧ t.fcause = s.fcause) ∨
      (t.run = .faulted ∧ decodeWith (fetchByte s) ≠ .ok .hlt ∧ t.fcause ≠ .none) := by
  rcases runCycle_cases h with ⟨e, he, rfl⟩ | ⟨i, hi, hexec⟩
  · exact .inr (.inr ⟨fetchFault_run e _, by simp [he], fetchFault_fcause_ne_none e _⟩)
  rcases exec_cases hexec with hc | ⟨r, hr, rfl⟩
  · obtain ⟨hcause, -⟩ := hc.record_eq
    rcases hc.run_of_running hrun with ⟨rfl, ht⟩ | ⟨hne, ht⟩
    · exact .inr (.inl ⟨ht, hi, hcause⟩)
    · exact .inl ⟨ht, by simpa [hi] using hne, hcause⟩
  · have hne : i ≠ .hlt := by
      rintro rfl
      cases hr with
      | register _ _ _ hb => cases hb
    exact .inr (.inr ⟨rfl, by simpa [hi] using hne, hr.cause_ne_none⟩)

/-- Settles O41, row by row of the table. -/
theorem runStatesFollowTheTable : Obligations.RunStatesFollowTheTable := by
  intro s t h
  refine ⟨fun hrst => ?_, fun hrst hrun => ?_, fun hrst hrun => ?_, fun hrst hrun => ?_, fun hrst hrun => ?_⟩
  · cases (step_of_rst hrst).symm.trans h
    rfl
  · cases (step_of_reset hrst hrun).symm.trans h
    exact ⟨rfl, rfl⟩
  · rw [step_running hrun hrst] at h
    rw [decode_bytesAtPc]
    rcases runCycle_run_cases hrun h with ⟨ht, hdec, hcause⟩ | ⟨ht, hdec, hcause⟩ | ⟨ht, hdec, hcause⟩
    · exact ⟨.inl ht, by simp [ht, hdec], fun hs => by simp [ht, hcause, hs]⟩
    · exact ⟨.inr (.inl ht), by simp [ht, hdec], fun hs => by simp [ht, hcause, hs]⟩
    · exact ⟨.inr (.inr ht), by simp [ht, hdec], fun _ => by simp [ht, hcause]⟩
  · cases (step_of_ended hrst (.inl hrun)).symm.trans h
    exact hrun
  · cases (step_of_ended hrst (.inr hrun)).symm.trans h
    exact hrun

end Sys2Proof.Machine
end

section
/-! The clock level realises the step (40_control_fsm.md R145 to R147, 70_reset_and_hazards.md R275): the edges of one
cycle, from the last backwards. -/

namespace Sys2Proof.Machine

variable {m : Micro} {t : State}

/-- Settles O54, row by row of R146: S_RESET, S_HALT, S_FAULT, and any row under `rst`. -/
theorem microResetAndHoldAreSteps : Obligations.MicroResetAndHoldAreSteps := by
  intro m hstage hrun
  rcases hrst : m.core.pins.rst with _ | _
  case true =>
    rw [Micro.clock_of_rst hrst]
    exact ⟨step_of_rst hrst, rfl⟩
  have hne : m.core.run ≠ .running := by simpa [hrst] using hrun
  rw [← hstage] at hne
  cases hs : m.stage with
  | sReset =>
    rw [hs] at hstage
    rw [Micro.clock_of_sReset hrst hs]
    exact ⟨step_of_reset hrst hstage.symm, rfl⟩
  | sFetch | sOp1 | sOp2 | sExec =>
    rw [hs] at hne
    exact absurd rfl hne
  | sHalt =>
    rw [hs] at hstage
    rw [Micro.clock_of_ended hrst (.inl hs)]
    exact ⟨step_of_ended hrst (.inl hstage.symm), hs.trans (congrArg RunState.boundary hstage)⟩
  | sFault =>
    rw [hs] at hstage
    rw [Micro.clock_of_ended hrst (.inr hs)]
    exact ⟨step_of_ended hrst (.inr hstage.symm), hs.trans (congrArg RunState.boundary hstage)⟩

/-! ### The edges of a cycle -/

/-- `CycleEnds t n m`: `n` edges from `m` end the cycle in `t` at its boundary, and each edge before the last one stays
in the cycle and changes nothing but the strobe. -/
inductive Micro.CycleEnds (t : State) : Nat → Micro → Prop
  | last {m : Micro} (hcore : m.clock.core = t) (hstage : m.clock.stage = t.run.boundary) : CycleEnds t 1 m
  | edge {m : Micro} {n : Nat} (hcore : m.clock.core = m.core.clearPort) (hrun : m.clock.stage.runState = .running)
      (h : CycleEnds t n m.clock) : CycleEnds t (n + 1) m

theorem Micro.CycleEnds.clocks_end {n : Nat} (h : m.CycleEnds t n) :
    (Micro.clocks n m).core = t ∧ (Micro.clocks n m).stage = t.run.boundary := by
  induction h with
  | last hcore hstage => exact ⟨hcore, hstage⟩
  | edge _ _ _ ih => exact ih

theorem Micro.CycleEnds.clocks_before {n k : Nat} (h : m.CycleEnds t n) (hpos : 0 < k) (hlt : k < n) :
    (Micro.clocks k m).core = m.core.clearPort ∧ (Micro.clocks k m).stage.runState = .running := by
  induction h generalizing k with
  | last => omega
  | edge hcore hrun _ ih =>
    match k with
    | 1 => exact ⟨hcore, hrun⟩
    | k + 2 =>
      obtain ⟨ihcore, ihrun⟩ := ih (Nat.succ_pos k) (by omega)
      rw [hcore] at ihcore
      exact ⟨ihcore, ihrun⟩

/-! ### S_EXEC, the last edge of an instruction's cycle -/

/-- The strobe of the step before is no part of the stack access. -/
theorem stackAccess_clearPort (i : Instr) (s : State) : stackAccess i s.clearPort = stackAccess i s := by
  cases i <;> rfl

/-- A format without operands ignores both operand latches (R101). -/
theorem buildInstr_of_nOps_zero {mn : Mnemonic} (h : (entryOf mn).nOps = 0) (o1 o2 : Byte) :
    buildInstr mn o1 o2 = buildInstr mn 0 0 := by
  cases mn <;> cases h <;> rfl

/-- A format with one operand ignores the second operand latch (R101). -/
theorem buildInstr_of_nOps_one {mn : Mnemonic} (h : (entryOf mn).nOps = 1) (o1 o2 : Byte) :
    buildInstr mn o1 o2 = buildInstr mn o1 0 := by
  cases mn <;> cases h <;> rfl

/-- The `halt` output marks HLT alone (R104). -/
theorem halt_iff (i : Instr) : (entryOutputs (entryOf i.mnemonic)).halt = true ↔ i = .hlt := by
  cases i <;> simp [entryOutputs, entryOf, Instr.mnemonic]

/-- After S_EXEC of a running state the FSM is at the boundary of the run state the instruction leaves (R146). -/
theorem execSuccessor_eq_boundary {i : Instr} {s : State} (hrun : s.run = .running) (h : exec i s = .next t) :
    execSuccessor (entryOutputs (entryOf i.mnemonic)) t = t.run.boundary := by
  rcases exec_cases h with hc | ⟨r, -, rfl⟩
  · rcases hc.run_of_running hrun with ⟨hi, ht⟩ | ⟨hi, ht⟩
    · simp [execSuccessor, ht, (halt_iff i).mpr hi, RunState.boundary]
    · simp [execSuccessor, ht, mt (halt_iff i).mp hi, RunState.boundary]
  · rfl

/-! ### The edges, one lemma for each row of R146 and each of its outcomes -/

/-- An edge that faults ends the cycle in the fault's state. -/
theorem Micro.cycleEnds_of_fault {e : DecodeError} (h : m.clock = m.fault e) :
    m.CycleEnds (fetchFault e m.core.clearPort) 1 := by
  refine .last (by rw [h]; rfl) ?_
  rw [h, Micro.fault_stage, fetchFault_run]
  rfl

/-- The machine after an S_FETCH edge that latches the opcode of a row. -/
def Micro.opcodeLatched (m : Micro) (mn : Mnemonic) : Micro :=
  { m with
    core := m.core.clearPort
    ir := (entryOf mn).opcode
    dec := some (entryOutputs (entryOf mn))
    stage := if (entryOf mn).nOps = 0 then .sExec else .sOp1 }

/-- The machine after an S_OP1 edge that latches the first operand. -/
def Micro.firstLatched (m : Micro) (b : Byte) : Micro :=
  { m with core := m.core.clearPort, o1 := b, stage := if m.nOps = 2 then .sOp2 else .sExec }

/-- The machine after an S_OP2 edge that latches the second operand. -/
def Micro.secondLatched (m : Micro) (b : Byte) : Micro :=
  { m with core := m.core.clearPort, o2 := b, stage := .sExec }

section
variable (hrst : m.core.pins.rst = false)
include hrst

/-- The edge of S_EXEC ends the cycle in what the latched instruction answers: the port shows it all of memory that it
reads, and gives the array what it writes. -/
theorem Micro.cycleEnds_of_sExec {mn : Mnemonic} {i : Instr} (hs : m.stage = .sExec) (hrun : m.core.run = .running)
    (hdec : m.dec = some (entryOutputs (entryOf mn))) (hi : buildInstr mn m.o1 m.o2 = i)
    (h : exec i m.core.clearPort = .next t) : m.CycleEnds t 1 := by
  obtain rfl : i.mnemonic = mn := by rw [← hi, buildInstr_mnemonic]
  have hlatched : m.latched (entryOutputs (entryOf i.mnemonic)) = i := by
    rw [Micro.latched, entryOutputs_opSel, hi]
  have hport : m.memPort = stackAccess i m.core.clearPort := by
    rw [Micro.memPort_of_sExec hrst hs, hdec, Option.bind_some, hlatched, stackAccess_clearPort]
  obtain ⟨u, hview, hwhole⟩ := exec_through_port i m.core.clearPort
  rw [← hport] at hview hwhole
  cases hwhole.symm.trans h
  have hclock : m.clock = { m with
      core := { u with mem := arrayAtEdge m.core.mem m.memPort }
      stage := execSuccessor (entryOutputs (entryOf i.mnemonic)) u } :=
    (Micro.clock_of_sExec hrst hs).trans (Micro.clockExec_of_exec hdec (hlatched.symm ▸ hview))
  refine .last (by rw [hclock]; rfl) ?_
  rw [hclock]
  exact execSuccessor_eq_boundary (s := m.execView) hrun hview

theorem Micro.memRdata_of_sFetch (hs : m.stage = .sFetch) : m.memRdata = fetchByte m.core 0 := by
  rw [m.memRdata_of_fetch (by rw [hs]; rfl) hrst, hs]
  rfl

theorem Micro.memRdata_of_sOp1 (hs : m.stage = .sOp1) : m.memRdata = fetchByte m.core 1 := by
  rw [m.memRdata_of_fetch (by rw [hs]; rfl) hrst, hs]
  rfl

theorem Micro.memRdata_of_sOp2 (hs : m.stage = .sOp2) : m.memRdata = fetchByte m.core 2 := by
  rw [m.memRdata_of_fetch (by rw [hs]; rfl) hrst, hs]
  rfl

theorem Micro.cycleEnds_of_noOpcode (hs : m.stage = .sFetch) (h : fetchByte m.core 0 = none) :
    m.CycleEnds (fetchFault .noOpcode m.core.clearPort) 1 :=
  Micro.cycleEnds_of_fault
    ((Micro.clock_of_sFetch hrst hs).trans (Micro.clockFetch_of_none ((Micro.memRdata_of_sFetch hrst hs).trans h)))

theorem Micro.cycleEnds_of_unknownOpcode {op : Byte} (hs : m.stage = .sFetch) (h : fetchByte m.core 0 = some op)
    (hop : lookupOpcode op = none) : m.CycleEnds (fetchFault (.unknownOpcode op) m.core.clearPort) 1 :=
  Micro.cycleEnds_of_fault
    ((Micro.clock_of_sFetch hrst hs).trans
      (Micro.clockFetch_of_unknown ((Micro.memRdata_of_sFetch hrst hs).trans h) ((decoderOutputs_eq_none op).mpr hop)))

theorem Micro.cycleEnds_of_missingFirst (hs : m.stage = .sOp1) (h : fetchByte m.core 1 = none) :
    m.CycleEnds (fetchFault (.missingOperand m.ir 1) m.core.clearPort) 1 :=
  Micro.cycleEnds_of_fault
    ((Micro.clock_of_sOp1 hrst hs).trans (Micro.clockOp1_of_none ((Micro.memRdata_of_sOp1 hrst hs).trans h)))

theorem Micro.cycleEnds_of_missingSecond (hs : m.stage = .sOp2) (h : fetchByte m.core 2 = none) :
    m.CycleEnds (fetchFault (.missingOperand m.ir 2) m.core.clearPort) 1 :=
  Micro.cycleEnds_of_fault
    ((Micro.clock_of_sOp2 hrst hs).trans (Micro.clockOp2_of_none ((Micro.memRdata_of_sOp2 hrst hs).trans h)))

theorem Micro.cycleEnds_of_opcodeLatched {mn : Mnemonic} {n : Nat} (hs : m.stage = .sFetch)
    (h0 : fetchByte m.core 0 = some (entryOf mn).opcode) (h : (m.opcodeLatched mn).CycleEnds t n) :
    m.CycleEnds t (n + 1) := by
  have hclock : m.clock = m.opcodeLatched mn :=
    (Micro.clock_of_sFetch hrst hs).trans
      (Micro.clockFetch_of_some ((Micro.memRdata_of_sFetch hrst hs).trans h0) (decoderOutputs_opcode mn))
  refine .edge (by rw [hclock]; rfl) ?_ (by rw [hclock]; exact h)
  rw [hclock, Micro.opcodeLatched]
  split <;> rfl

theorem Micro.cycleEnds_of_firstLatched {b : Byte} {n : Nat} (hs : m.stage = .sOp1)
    (h1 : fetchByte m.core 1 = some b) (h : (m.firstLatched b).CycleEnds t n) : m.CycleEnds t (n + 1) := by
  have hclock : m.clock = m.firstLatched b :=
    (Micro.clock_of_sOp1 hrst hs).trans (Micro.clockOp1_of_some ((Micro.memRdata_of_sOp1 hrst hs).trans h1))
  refine .edge (by rw [hclock]; rfl) ?_ (by rw [hclock]; exact h)
  rw [hclock, Micro.firstLatched]
  split <;> rfl

theorem Micro.cycleEnds_of_secondLatched {b : Byte} {n : Nat} (hs : m.stage = .sOp2)
    (h2 : fetchByte m.core 2 = some b) (h : (m.secondLatched b).CycleEnds t n) : m.CycleEnds t (n + 1) := by
  have hclock : m.clock = m.secondLatched b :=
    (Micro.clock_of_sOp2 hrst hs).trans (Micro.clockOp2_of_some ((Micro.memRdata_of_sOp2 hrst hs).trans h2))
  exact .edge (by rw [hclock]; rfl) (by rw [hclock]; rfl) (by rw [hclock]; exact h)

/-- From S_FETCH `cycleClocks` edges end the cycle in its architectural result, one case for each outcome of the decoder. -/
theorem Micro.cycleEnds_of_sFetch (hs : m.stage = .sFetch) (hrun : m.core.run = .running)
    (h : runCycle m.core = .next t) : m.CycleEnds t (cycleClocks m.core) := by
  have hout := decodeOutcome (fetchByte m.core)
  unfold runCycle at h
  unfold cycleClocks
  generalize decodeWith (fetchByte m.core) = r at h hout ⊢
  cases hout with
  | noOpcode h0 =>
    cases h
    exact Micro.cycleEnds_of_noOpcode hrst hs h0
  | unknownOpcode op h0 hop =>
    cases h
    exact Micro.cycleEnds_of_unknownOpcode hrst hs h0 hop
  | missingFirst mn h0 hn h1 =>
    cases h
    refine Micro.cycleEnds_of_opcodeLatched hrst hs h0 ?_
    exact Micro.cycleEnds_of_missingFirst (m := m.opcodeLatched mn) hrst (if_neg hn) h1
  | missingSecond mn o1 h0 hn h1 h2 =>
    cases h
    have hne : (entryOf mn).nOps ≠ 0 := by omega
    refine Micro.cycleEnds_of_opcodeLatched hrst hs h0 ?_
    refine Micro.cycleEnds_of_firstLatched (m := m.opcodeLatched mn) hrst (if_neg hne) h1 ?_
    exact Micro.cycleEnds_of_missingSecond (m := (m.opcodeLatched mn).firstLatched o1) hrst (if_pos hn) h2
  | noOperand mn h0 hn =>
    simp only [length_operands, buildInstr_mnemonic, hn]
    refine Micro.cycleEnds_of_opcodeLatched hrst hs h0 ?_
    exact Micro.cycleEnds_of_sExec hrst (if_pos hn) hrun rfl (buildInstr_of_nOps_zero hn _ _) h
  | oneOperand mn o1 h0 hn h1 =>
    have hne : (entryOf mn).nOps ≠ 0 := by omega
    have hnTwo : (entryOf mn).nOps ≠ 2 := by omega
    simp only [length_operands, buildInstr_mnemonic, hn]
    refine Micro.cycleEnds_of_opcodeLatched hrst hs h0 ?_
    refine Micro.cycleEnds_of_firstLatched (m := m.opcodeLatched mn) hrst (if_neg hne) h1 ?_
    exact Micro.cycleEnds_of_sExec hrst (if_neg hnTwo) hrun rfl (buildInstr_of_nOps_one hn o1 _) h
  | twoOperands mn o1 o2 h0 hn h1 h2 =>
    have hne : (entryOf mn).nOps ≠ 0 := by omega
    simp only [length_operands, buildInstr_mnemonic, hn]
    refine Micro.cycleEnds_of_opcodeLatched hrst hs h0 ?_
    refine Micro.cycleEnds_of_firstLatched (m := m.opcodeLatched mn) hrst (if_neg hne) h1 ?_
    refine Micro.cycleEnds_of_secondLatched (m := (m.opcodeLatched mn).firstLatched o1) hrst (if_pos hn) h2 ?_
    exact Micro.cycleEnds_of_sExec hrst rfl hrun rfl rfl h

end

/-- Settles O53. -/
theorem microSequenceRealisesStep : Obligations.MicroSequenceRealisesStep := by
  intro m hs hrun hrst
  obtain ⟨t, ht⟩ := runCycle_next m.core
  have hends : m.CycleEnds t (cycleClocks m.core) := Micro.cycleEnds_of_sFetch hrst hs hrun ht
  exact ⟨⟨t, (step_running hrun hrst).trans ht, hends.clocks_end⟩, fun k hpos hlt => hends.clocks_before hpos hlt⟩

end Sys2Proof.Machine
end

section
/-! LDI and PRN (41_ldi_prn.md R160, R161): each completes for an operand below 8 and raises RegisterFault from 8 up. -/

namespace Sys2Proof.Machine

variable {s : State} {r imm : Byte}

/-- The first bad register of an instruction with one register operand. -/
theorem firstBadReg_of_single {i : Instr} (hi : i.regOperands = [r]) (hr : 8 ≤ r.toNat) : firstBadReg i = some r := by
  rw [firstBadReg, hi]
  exact List.find?_cons_of_pos (decide_eq_true hr)

/-- An instruction whose one register operand does not exist records the byte and writes nothing (R232, R237). -/
theorem exec_registerFault_of_single {i : Instr} (hi : i.regOperands = [r]) (hr : 8 ≤ r.toNat) (s : State) :
    ∃ t, exec i s = .next t ∧ t.run = .faulted ∧ t.fcause = .register ∧ t.finfo.toNat = r.toNat ∧ t.regs = s.regs ∧
      t.fl = s.fl ∧ t.mem = s.mem ∧ t.output = s.output :=
  ⟨_, exec_of_firstBadReg i s r (firstBadReg_of_single hi hr), rfl, rfl, zext9_toNat r, rfl, rfl, rfl, rfl⟩

/-- Settles O11: the completion and the register clause of PRN. -/
theorem prnEmitsRegister : Obligations.PrnEmitsRegister :=
  fun r s => ⟨rfl, fun hr => (Completes.prn r s hr).exec_eq, fun hr => exec_registerFault_of_single rfl hr s⟩

/-! ### LDI at the end of memory -/

/-- The bytes of an LDI at 253 fill memory to its last cell, and the fetch unit decodes them. -/
theorem decodeWith_ldi_of_pc_eq_253 (hpc : s.pc = 253) (hop : s.mem.read s.pc.toNat = 0x82) (hreg : s.mem.read 254 = r)
    (himm : s.mem.read 255 = imm) : decodeWith (fetchByte s) = .ok (.ldi r imm) := by
  have hfetch {k : Nat} (hk : k < 3) : fetchByte s k = some (s.mem.read (253 + k)) := by
    rw [fetchByte_of_lt s k (by rw [hpc]; exact Nat.add_lt_add_left hk 253), hpc]
    rfl
  rw [hpc] at hop
  refine decodeWith_of_encode fun k b hb => ?_
  match k, hb with
  | 0, rfl => exact (hfetch (by decide)).trans (congrArg some hop)
  | 1, rfl => exact (hfetch (by decide)).trans (congrArg some hreg)
  | 2, rfl => exact (hfetch (by decide)).trans (congrArg some himm)

/-- An LDI at 253 completes and leaves `pc` at 256, where the next fetch has no byte (R132, R160). -/
theorem step_ldi_of_pc_eq_253 (hrun : s.run = .running) (hrst : s.pins.rst = false) (hlt : r.toNat < 8)
    (hpc : s.pc = 253) (hdec : decodeWith (fetchByte s) = .ok (.ldi r imm)) :
    ∃ t u, step s = .next t ∧ t.regs = s.regs.set r.toNat imm ∧ t.pc = 256 ∧
      step t = .next u ∧ u.run = .faulted ∧ u.fcause = .memory ∧ u.finfo = 256 := by
  have hstep := step_of_completes hrun hrst hdec (Completes.ldi r imm s.clearPort hlt)
  have hnext : s.pc + 3 = 256 := by rw [hpc]; rfl
  have hfault := (fetchPastMemoryFaults ((s.clearPort.setReg ⟨r.toNat, hlt⟩ imm).advance 2) hrun hrst).1 hnext
  exact ⟨_, _, hstep, rfl, hnext, hfault, rfl, rfl, rfl⟩

/-- Settles O10: the completion and the register clause of LDI, then its fetch at 253, 254 and 255; the last two are O37. -/
theorem ldiLoadsImmediate : Obligations.LdiLoadsImmediate := by
  intro r imm s
  refine ⟨rfl, fun hr => (Completes.ldi r imm s hr).exec_eq, fun hr => exec_registerFault_of_single rfl hr s,
    fun hrun hrst hop => ⟨fun hlt hpc hreg himm => ?_, fun hpc => ?_⟩⟩
  · exact step_ldi_of_pc_eq_253 hrun hrst hlt hpc (decodeWith_ldi_of_pc_eq_253 hpc hop hreg himm)
  · have hcut : s.pc = 255 ∧ 1 ≤ (entryOf .ldi).nOps ∨ s.pc = 254 ∧ (entryOf .ldi).nOps = 2 :=
      hpc.symm.imp (⟨·, by decide⟩) (⟨·, rfl⟩)
    exact ⟨_, (fetchPastMemoryFaults s hrun hrst).2 .ldi hcut hop, rfl, rfl, rfl, rfl, rfl, rfl, rfl⟩

end Sys2Proof.Machine
end

section
/-! The ALU (42_alu.md R170 to R174): what ADD and MUL write, and a guard that raises for every other code, which no step
reaches (60_exceptions.md R234). -/

namespace Sys2Proof.Machine

variable {i : Instr} {s t : State}

/-! ### No step reaches the guard -/

/-- The faults of an instruction's rule are RegisterFault, StackFault and MemoryFault: the codes ADD and MUL give the ALU
pass its guard. -/
theorem Raises.cause_ne_unsupportedOperation {r : Raised} (h : Raises i s r) : r.cause ≠ .unsupportedOperation := by
  cases h <;> exact nofun

theorem fetchFault_fcause_ne_unsupportedOperation (e : DecodeError) (s : State) :
    (fetchFault e s).fcause ≠ .unsupportedOperation := by
  cases e <;> exact nofun

/-- A cycle that completes keeps `FCAUSE`, and no fetch, decode or rule raises UnsupportedOperation. -/
theorem runCycle_fcause_ne_unsupportedOperation (hs : s.fcause ≠ .unsupportedOperation) (h : runCycle s = .next t) :
    t.fcause ≠ .unsupportedOperation := by
  rcases runCycle_cases h with ⟨e, -, rfl⟩ | ⟨i, -, hexec⟩
  · exact fetchFault_fcause_ne_unsupportedOperation e _
  · rcases exec_cases hexec with hc | ⟨r, hr, rfl⟩
    · obtain ⟨hcause, -⟩ := hc.record_eq
      rw [hcause]
      exact hs
    · exact hr.cause_ne_unsupportedOperation

/-- Settles O40, row by row of the run-state table: a reset clears `FCAUSE`, and outside a cycle nothing else writes it. -/
theorem unsupportedOperationIsUnreachable : Obligations.UnsupportedOperationIsUnreachable := by
  intro s t hs hstep
  rcases step_cases hstep with rfl | ⟨-, rfl⟩ | ⟨-, hcycle⟩ | ⟨-, rfl⟩
  · exact nofun
  · rw [s.hostLoad_eq]
    exact hs
  · exact runCycle_fcause_ne_unsupportedOperation hs hcycle
  · exact hs

/-! ### ADD and MUL -/

/-- Settles O12: the completion of ADD. -/
theorem addWritesSum : Obligations.AddWritesSum :=
  fun rA rB s ha hb => (Completes.add rA rB s ha hb).exec_eq

/-- Settles O13: the completion of MUL. -/
theorem mulWritesLowProduct : Obligations.MulWritesLowProduct :=
  fun rA rB s ha hb => (Completes.mul rA rB s ha hb).exec_eq

/-- Settles O14: the next states of O12 and O13, whose register holds a byte's sum or product, so the result modulo 256. -/
theorem aluReducesModulo256 : Obligations.AluReducesModulo256 := by
  intro rA rB s ha hb
  refine ⟨⟨_, addWritesSum rA rB s ha hb, ?_, ?_⟩, ⟨_, mulWritesLowProduct rA rB s ha hb, ?_, ?_⟩⟩
  · simp only [Vector.getElem_set_self, BitVec.toNat_add]
  · simp only [Vector.getElem_set_self]
  · simp only [Vector.getElem_set_self, BitVec.toNat_mul]
  · simp only [Vector.getElem_set_self]

/-! ### The guard -/

/-- Any code but ADD's and MUL's raises UnsupportedOperation with the code as its info (R171; the codes are D28). -/
theorem aluResult_of_ne {op : BitVec 4} (hadd : op ≠ aluOpAdd) (hmul : op ≠ aluOpMul) (a b : Byte) :
    aluResult op a b = .error ⟨.unsupportedOperation, op.setWidth 9⟩ :=
  (if_neg hadd).trans (if_neg hmul)

/-- Settles O15: with both registers there, the ALU answers what the guard raises. -/
theorem aluGuardRaises : Obligations.AluGuardRaises := by
  intro op rA rB s ha hb hadd hmul
  rw [aluApply_of_lt op rA rB s ha hb, aluResult_of_ne hadd hmul]

end Sys2Proof.Machine
end

section
/-! The stack, CALL and RET (43_stack.md R180 to R185, 44_call_ret.md R190, R191): what the four instructions do inside their
bound and outside it, that a POP undoes a PUSH, and how many pushes fit. -/

namespace Sys2Proof.Machine

variable {s t : State} {r : Byte}

/-! ### Inside the bound -/

/-- The cell a PUSH or CALL inside its bound stores to, R7 - 1 without wrapping (R181, R183). -/
theorem pushCell_toNat (hsp : s.cfg.stackBase.toNat < s.regs[7].toNat) :
    (s.reg 7 - 1).toNat = s.regs[7].toNat - 1 :=
  byte_sub_one_toNat _ (Nat.zero_lt_of_lt hsp)

/-- Settles O16: the completion of PUSH. -/
theorem pushStoresBelowStackPointer : Obligations.PushStoresBelowStackPointer := by
  intro r s hr hsp
  rw [← pushCell_toNat hsp]
  exact (Completes.push r s hr hsp).exec_eq

/-- Settles O17: the completion of POP. -/
theorem popLoadsTopThenIncrements : Obligations.PopLoadsTopThenIncrements :=
  fun r s hr hsp => (Completes.pop r s hr hsp).exec_eq

/-- Settles O18: the completion of CALL. -/
theorem callPushesReturnAddress : Obligations.CallPushesReturnAddress := by
  intro r s hr hsp hpc
  rw [← pushCell_toNat hsp]
  exact (Completes.call r s hr hsp (Nat.lt_of_add_lt_add_right hpc)).exec_eq

/-- Settles O19: the completion of RET. -/
theorem retPopsReturnAddress : Obligations.RetPopsReturnAddress :=
  fun s hsp => (Completes.ret s hsp).exec_eq

/-! ### Outside the bound -/

/-- Settles O35: the stack clauses of `Raises`, one for each of the four instructions. -/
theorem stackBoundsFault : Obligations.StackBoundsFault :=
  fun r s hr =>
    ⟨fun hsp => ⟨(Raises.push r s hr hsp).exec_eq, (Raises.call r s hr hsp).exec_eq⟩,
      fun hsp => ⟨(Raises.pop r s hr hsp).exec_eq, (Raises.ret s hsp).exec_eq⟩⟩

/-! ### After a PUSH -/

/-- A completed PUSH leaves R7 one lower (R183). -/
theorem Completes.sp_of_push (h : Completes (.push r) s t) : t.reg 7 = s.reg 7 - 1 := by
  cases h
  exact State.reg_setReg_same s 7 _

/-- After a completed PUSH the top cell holds the operand as it then is, R7 included (R183). -/
theorem Completes.top_of_push (h : Completes (.push r) s t) (hr : r.toNat < 8) :
    t.mem.read (t.reg 7).toNat = t.reg ⟨r.toNat, hr⟩ := by
  rw [h.sp_of_push]
  cases h
  exact Memory.read_write_same s.mem _ _ (s.reg 7 - 1).isLt

/-! ### A POP undoes a PUSH -/

/-- A register written with what it holds leaves the state as it was. -/
theorem State.setReg_reg (s : State) (i : Fin 8) : s.setReg i (s.reg i) = s :=
  congrArg (fun regs => { s with regs := regs }) (Vector.set_getElem_self i.isLt)

/-- A register written and then given its old value back leaves the state as it was. -/
theorem State.setReg_setReg_reg (s : State) (i : Fin 8) (v : Byte) : (s.setReg i v).setReg i (s.reg i) = s :=
  (congrArg (fun regs => { s with regs := regs }) (Vector.set_set ..)).trans (s.setReg_reg i)

/-- Where the top cell holds the operand's own value, POP changes only R7 and `pc`, whether or not the operand is R7
(R184, R185). -/
theorem Completes.pop_of_top (hr : r.toNat < 8) (hsp : (s.reg 7).toNat < s.cfg.spInit.toNat)
    (htop : s.mem.read (s.reg 7).toNat = s.reg ⟨r.toNat, hr⟩) :
    Completes (.pop r) s ((s.setReg 7 (s.reg 7 + 1)).advance 1) := by
  have hpop := Completes.pop r s hr hsp
  rwa [htop, s.setReg_reg] at hpop

/-- Settles O20: after the PUSH the top cell holds the operand, so the POP only gives R7 its old value back. -/
theorem pushThenPopRestoresRegisters : Obligations.PushThenPopRestoresRegisters := by
  intro r s hr hbase hinit
  have hpush := Completes.push r s hr hbase
  refine ⟨_, _, hpush.exec_eq, (Completes.pop_of_top hr ?_ (hpush.top_of_push hr)).exec_eq, ?_⟩
  · rw [hpush.sp_of_push, pushCell_toNat hbase]
    exact Nat.sub_one_lt_of_le (Nat.zero_lt_of_lt hbase) hinit
  · have hpc : s.pc + 2 + 2 = s.pc + 4 := BitVec.add_assoc ..
    rw [hpush.sp_of_push, BitVec.sub_add_cancel, ← pushCell_toNat hbase, ← hpc]
    exact congrArg
      (fun u : State => { u with
        mem := s.mem.write (s.reg 7 - 1).toNat ((s.setReg 7 (s.reg 7 - 1)).reg ⟨r.toNat, hr⟩)
        pc := s.pc + 2 + 2 })
      (s.setReg_setReg_reg 7 (s.reg 7 - 1))

/-! ### The stack's capacity -/

/-- A repetition goes on after an instruction that completes. -/
theorem repeatExec_succ_of_completes {i : Instr} {k : Nat} (h : Completes i s t) (hrun : t.run ≠ .faulted) :
    repeatExec (k + 1) i s = repeatExec k i t := by
  simp only [repeatExec, h.exec_eq, if_neg hrun]

/-- A repetition ends at the first instruction that faults. -/
theorem repeatExec_succ_of_raises {i : Instr} {k : Nat} {e : Raised} (h : Raises i s e) :
    repeatExec (k + 1) i s = none := by
  simp only [repeatExec, h.exec_eq, faultEntry_run, if_pos]

/-- As many pushes in a row succeed as there are places between STACK_BASE and R7, in any state that is not FAULTED. -/
theorem repeatExec_push_isSome_iff (hr : r.toNat < 8) (n : Nat) (s : State) (hrun : s.run ≠ .faulted) :
    (repeatExec n (.push r) s).isSome = true ↔ n ≤ (s.reg 7).toNat - s.cfg.stackBase.toNat := by
  induction n generalizing s with
  | zero => exact iff_of_true rfl (Nat.zero_le _)
  | succ k ih =>
    rcases Nat.lt_or_ge s.cfg.stackBase.toNat (s.reg 7).toNat with hsp | hsp
    · obtain ⟨t, hpush⟩ : ∃ t, Completes (.push r) s t := ⟨_, .push r s hr hsp⟩
      obtain ⟨-, hcfg⟩ := hpush.pins_cfg
      have htrun : t.run ≠ .faulted := (hpush.run_cases.resolve_right nofun).trans_ne hrun
      rw [repeatExec_succ_of_completes hpush htrun, ih t htrun, hcfg, hpush.sp_of_push,
        byte_sub_one_toNat _ (Nat.zero_lt_of_lt hsp)]
      omega
    · rw [repeatExec_succ_of_raises (.push r s hr hsp)]
      exact iff_of_false nofun (by omega)

/-- Settles O22: with R7 at SP_INIT the places are SP_INIT - STACK_BASE, at any value of the two constants. -/
theorem stackHoldsItsCapacity : Obligations.StackHoldsItsCapacity := by
  intro s r n hrun hr _ hsp
  have hcap := repeatExec_push_isSome_iff hr n s (hrun.trans_ne nofun)
  rwa [show s.reg 7 = s.cfg.spInit from hsp] at hcap

end Sys2Proof.Machine
end

section
/-! CALL followed by RET, and the return address that does not fit a cell (44_call_ret.md R190 to R192). -/

namespace Sys2Proof.Machine

variable {s t : State} {r : Byte}

/-! ### After a CALL -/

/-- A completed CALL leaves R7 one lower (R190). -/
theorem Completes.sp_of_call (h : Completes (.call r) s t) : t.reg 7 = s.reg 7 - 1 := by
  cases h
  exact State.reg_setReg_same s 7 _

/-- A completed CALL had its bound below R7 (R181). -/
theorem Completes.stackBase_lt_of_call (h : Completes (.call r) s t) : s.cfg.stackBase.toNat < (s.reg 7).toNat := by
  cases h
  assumption

/-- After a completed CALL the top cell holds the return address, and no bit of it is lost (R190). -/
theorem Completes.top_of_call (h : Completes (.call r) s t) : zext9 (t.mem.read (t.reg 7).toNat) = s.pc + 2 := by
  rw [h.sp_of_call]
  cases h with
  | call _ _ hr hsp hpc =>
    have htop := Memory.read_write_same s.mem _ (BitVec.ofNat 8 (s.pc.toNat + 2)) (s.reg 7 - 1).isLt
    refine (congrArg zext9 htop).trans (BitVec.eq_of_toNat_eq ?_)
    rw [zext9_toNat]
    bv_omega

/-- After a completed CALL, R7 given its old value back and `pc` written anew, only the pushed cell and `pc` differ. -/
theorem Completes.restore_of_call (h : Completes (.call r) s t) (v : Byte) :
    (t.setReg 7 (s.reg 7)).jump v = { s with mem := t.mem, pc := zext9 v } := by
  have hregs := congrArg (fun u : State => { u with mem := t.mem, pc := zext9 v }) (s.setReg_setReg_reg 7 (s.reg 7 - 1))
  cases h
  exact hregs

/-- Where R7 was at most SP_INIT, RET completes after a CALL, and what then differs is the pushed cell and `pc`, the
address after the CALL (R192). -/
theorem Completes.ret_of_call (h : Completes (.call r) s t) (hinit : (s.reg 7).toNat ≤ s.cfg.spInit.toNat) :
    Completes .ret t { s with mem := t.mem, pc := s.pc + 2 } := by
  obtain ⟨-, hcfg⟩ := h.pins_cfg
  have hpos : 0 < (s.reg 7).toNat := Nat.zero_lt_of_lt h.stackBase_lt_of_call
  have hbound : (t.reg 7).toNat < t.cfg.spInit.toNat := by
    rw [hcfg, h.sp_of_call, byte_sub_one_toNat _ hpos]
    exact Nat.sub_one_lt_of_le hpos hinit
  have hret := Completes.ret t hbound
  have hsp : t.reg 7 + 1 = s.reg 7 := by rw [h.sp_of_call, BitVec.sub_add_cancel]
  rwa [hsp, h.restore_of_call, h.top_of_call] at hret

/-- Settles O21: the completion of CALL, then of RET by `Completes.ret_of_call`. -/
theorem callThenRetResumes : Obligations.CallThenRetResumes := by
  intro r s hr hsp hinit hpc
  have hcall := Completes.call r s hr hsp (Nat.lt_of_add_lt_add_right hpc)
  rw [← pushCell_toNat hsp]
  exact ⟨_, _, hcall.exec_eq, (hcall.ret_of_call hinit).exec_eq, rfl⟩

/-! ### The return address 256 -/

/-- Settles O36: at 254 the return address is 256, so CALL's last check raises. -/
theorem callAtTopOfMemoryFaults : Obligations.CallAtTopOfMemoryFaults := by
  intro r s hr hsp hpc
  have hp : 254 ≤ s.pc.toNat := by simp [hpc]
  rw [(Raises.returnAddress r s hr hsp hp).exec_eq]
  simp [faultEntry, memoryFault, entryOf, Instr.mnemonic, hpc]

end Sys2Proof.Machine
end

section
/-! CMP: the comparator on each order of its operands, and the instruction (45_compare.md R200). -/

namespace Sys2Proof.Machine

variable {a b : Byte}

/-! ### The comparator, one lemma for each order of the unsigned values -/

theorem compareFlag_of_toNat_eq (h : a.toNat = b.toNat) : compareFlag a b = .eq := if_pos (BitVec.eq_of_toNat_eq h)

theorem compareFlag_of_gt (h : b.toNat < a.toNat) : compareFlag a b = .gt := by
  have hne : a ≠ b := ne_of_apply_ne BitVec.toNat h.ne'
  exact (if_neg hne).trans (if_pos h)

theorem compareFlag_of_lt (h : a.toNat < b.toNat) : compareFlag a b = .lt := by
  have hne : a ≠ b := ne_of_apply_ne BitVec.toNat h.ne
  exact (if_neg hne).trans (if_neg (Nat.lt_asymm h))

/-! ### The instruction -/

/-- CMP on registers that exist writes the comparator's answer to `FL`, and nothing else but `pc` (R200). -/
theorem exec_cmp_of_compareFlag {rA rB : Byte} {s : State} {f : Flag} (ha : rA.toNat < 8) (hb : rB.toNat < 8)
    (hf : compareFlag s.regs[rA.toNat] s.regs[rB.toNat] = f) :
    exec (.cmp rA rB) s = .next { s with fl := f, pc := s.pc + 3 } := by
  subst hf
  exact (Completes.cmp rA rB s ha hb).exec_eq

/-- Settles O23: each order of the two values by the comparator's lemma for it. -/
theorem cmpOrdersUnsigned : Obligations.CmpOrdersUnsigned := by
  intro rA rB s ha hb
  refine ⟨fun heq => ?_, fun hgt => ?_, fun hlt => ?_⟩
  · exact exec_cmp_of_compareFlag ha hb (compareFlag_of_toNat_eq heq)
  · exact exec_cmp_of_compareFlag ha hb (compareFlag_of_gt hgt)
  · exact exec_cmp_of_compareFlag ha hb (compareFlag_of_lt hlt)

end Sys2Proof.Machine
end

section
/-! JMP, JEQ and JNE, each by its completions (46_jump.md R210 to R213). -/

namespace Sys2Proof.Machine

/-- GT, LT and NONE are not EQ (D7). -/
theorem ne_eq_of_gt_or_lt_or_none {f : Flag} (h : f = .gt ∨ f = .lt ∨ f = .none) : f ≠ .eq := by
  rcases h with rfl | rfl | rfl <;> decide

/-- Settles O25: each jump's taken or not taken completion, chosen by whether `FL` is EQ. -/
theorem conditionalJumpsAreOpposite : Obligations.ConditionalJumpsAreOpposite := by
  intro r s hr
  refine ⟨fun heq => ⟨?_, ?_⟩, fun hother => ?_⟩
  · exact (Completes.jeqTaken r s hr heq).exec_eq
  · exact (Completes.jneNotTaken r s hr heq).exec_eq
  · have hne : s.fl ≠ .eq := ne_eq_of_gt_or_lt_or_none hother
    exact ⟨(Completes.jeqNotTaken r s hr hne).exec_eq, (Completes.jneTaken r s hr hne).exec_eq⟩

/-- Settles O24: the completion of JMP. -/
theorem jmpGoesToRegister : Obligations.JmpGoesToRegister :=
  fun r s hr => (Completes.jmp r s hr).exec_eq

end Sys2Proof.Machine
end

section
/-! Precise faults: a faulting cycle is a fault entry on the state before it (60_exceptions.md R237, R238). -/

namespace Sys2Proof.Machine

variable {s t : State}

/-- Neither HLT nor any other completion sets FAULTED. -/
theorem Completes.run_ne_faulted {i : Instr} (h : Completes i s t) (hrun : s.run = .running) : t.run ≠ .faulted := by
  rcases h.run_of_running hrun with ⟨-, ht⟩ | ⟨-, ht⟩ <;> rw [ht] <;> decide

/-- A cycle ends in FAULTED only by a fault entry on the state it began in, the strobe being over (R131, R237). -/
theorem runCycle_eq_faultEntry (hrun : s.run = .running) (h : runCycle s = .next t) (ht : t.run = .faulted) :
    ∃ op r, t = faultEntry op r s.clearPort := by
  rcases runCycle_cases h with ⟨e, -, rfl⟩ | ⟨i, -, hexec⟩
  · exact fetchFault_eq_faultEntry e s.clearPort
  · rcases exec_cases hexec with hc | ⟨r, -, rfl⟩
    · exact absurd ht (hc.run_ne_faulted hrun)
    · exact ⟨_, r, rfl⟩

/-- Settles O39: the cycle is a fault entry, which writes `RUN` and the record and copies `pc` to `FPC`. -/
theorem faultingCycleCommitsNothing : Obligations.FaultingCycleCommitsNothing := by
  intro s t hrun hrst h ht
  rw [step_running hrun hrst] at h
  obtain ⟨op, r, rfl⟩ := runCycle_eq_faultEntry hrun h ht
  rfl

end Sys2Proof.Machine
end

section
/-! Reset, release and the boot sequence (70_reset_and_hazards.md R260 to R263): a state at its reset values is one that
the reset leaves as it is, and every load of the boot sequence answers such a state. -/

namespace Sys2Proof.Machine

variable {s t : State}

/-! ### The reset values -/

theorem State.hostLoad_mem (s : State) :
    s.hostLoad.mem = if s.run = .reset ∧ s.pins.loadWe = true
      then s.mem.write s.pins.loadAddr.toNat s.pins.loadData else s.mem := by
  rcases s.hostLoad_cases with ⟨hrun, hwe, h⟩ | ⟨hno, h⟩
  · rw [h, if_pos ⟨hrun, hwe⟩]
  · rw [h, if_neg hno]

/-- Settles O43: under `rst` a step is the reset, and before it the load port changes memory alone. -/
theorem resetAppliesItsValues : Obligations.ResetAppliesItsValues := by
  intro s hrst
  rw [step_of_rst hrst, ← s.hostLoad_mem, s.hostLoad_eq]
  rfl

/-- Settles O50, part by part: RUNNING wants the record clear, and the other parts are R260's values. -/
theorem resetStateIsLegal : Obligations.ResetStateIsLegal :=
  have hmem : State.reset.MemOk := rfl
  have hpc : State.reset.PcOk := Nat.zero_le _
  have hcfg : State.reset.CfgOk := rfl
  have hrecord : State.reset.RecordOk := ⟨nofun, fun _ => ⟨rfl, rfl, rfl, rfl⟩⟩
  ⟨hmem, hpc, hcfg, hrecord, nofun, .inl rfl⟩

/-! ### Release -/

/-- With `load_we` low the load port writes nothing (R80). -/
theorem State.hostLoad_of_loadWe_low (h : s.pins.loadWe = false) : s.hostLoad = s :=
  if_neg fun hw => Bool.false_ne_true (h.symm.trans hw.2)

/-- Settles O44: the step is the release, with no write of the load port before it. -/
theorem releaseStartsAtZero : Obligations.ReleaseStartsAtZero := by
  intro s hrun hrst hwe
  rw [step_of_reset hrst hrun, State.hostLoad_of_loadWe_low hwe]
  rfl

/-- Released with idle pins, a state at its reset values is `State.reset` but for its memory and its configuration. -/
theorem State.drive_idle_release (h : s.applyReset = s) :
    (s.drive .idle).release = { State.reset with
      regs := #v[0, 0, 0, 0, 0, 0, 0, s.cfg.spInit], mem := s.mem, cfg := s.cfg } := by
  rw [← h]
  rfl

/-! ### The boot sequence -/

/-- A run of two lists of pin levels is the run of the second from where the first ended. -/
theorem runInputs_append {xs : List HostPins} (ys : List HostPins) (h : runInputs xs s = .next t) :
    runInputs (xs ++ ys) s = runInputs ys t := by
  induction xs generalizing s with
  | nil =>
    cases h
    rfl
  | cons p rest ih =>
    obtain ⟨u, hu⟩ := everyStepAnswers (s.drive p)
    rw [runInputs_cons rest hu] at h
    rw [List.cons_append, runInputs_cons _ hu]
    exact ih h

/-- R263 step 2: one load in RESET answers a state at its reset values, the cell written. -/
theorem step_load (hrun : s.run = .reset) {a : Nat} (ha : a < 256) (v : Byte) :
    ∃ t, step (s.drive (.load a v)) = .next t ∧ t.applyReset = t ∧ t.cfg = s.cfg ∧ t.mem = s.mem.write a v := by
  have haddr : (HostPins.load a v).loadAddr.toNat = a := Nat.mod_eq_of_lt ha
  refine ⟨_, step_of_rst rfl, rfl, (s.drive (.load a v)).hostLoad_cfg_pins.1, ?_⟩
  rw [State.applyReset_mem, State.hostLoad_mem, if_pos ⟨hrun, rfl⟩, State.drive_pins, haddr]
  rfl

/-- R263 step 2: `n` loads from address `a` keep the reset values and write the cells from `a` on, and no other. -/
theorem runInputs_loadInputs (image : List Byte) {a n : Nat} (hs : s.applyReset = s) (hn : a + n ≤ 256) :
    ∃ t, runInputs (loadInputs image a n) s = .next t ∧ t.applyReset = t ∧ t.cfg = s.cfg ∧
      ∀ b, t.mem.read b = if a ≤ b ∧ b < a + n then image.getD b 0 else s.mem.read b := by
  induction n generalizing a s with
  | zero => exact ⟨s, rfl, hs, rfl, fun b => (if_neg (by omega)).symm⟩
  | succ k ih =>
    have hrun : s.run = .reset := congrArg State.run hs.symm
    have ha : a < 256 := by omega
    obtain ⟨u, hstep, hu, hcfg, hmem⟩ := step_load hrun ha (image.getD a 0)
    obtain ⟨t, ht, htreset, htcfg, hread⟩ := ih hu (a := a + 1) (by omega)
    refine ⟨t, (runInputs_cons _ hstep).trans ht, htreset, htcfg.trans hcfg, fun b => ?_⟩
    rw [hread b, hmem]
    by_cases hb : b = a
    · subst hb
      rw [if_neg (by omega), if_pos (by omega), Memory.read_write_same _ _ _ ha]
    · rw [Memory.read_write_other _ _ _ _ hb]
      exact if_congr (by omega) rfl rfl

/-- Settles O46: the assert gives the reset values, the loads keep them and write every cell, whatever the image's length,
and the release starts the run. -/
theorem bootRunsTheImage : Obligations.BootRunsTheImage := by
  intro s image _
  have hassert : step (s.drive .assertReset) = .next (s.drive .assertReset).applyReset := by
    rw [step_of_rst rfl, State.hostLoad_of_loadWe_low rfl]
  obtain ⟨u, hloads, hu, hcfg, hread⟩ :=
    runInputs_loadInputs image (s := (s.drive .assertReset).applyReset) (a := 0) (n := 256) rfl (by decide)
  have hrun : u.run = .reset := congrArg State.run hu.symm
  have hrelease : step (u.drive .idle) = .next (u.drive .idle).release :=
    releaseStartsAtZero (u.drive .idle) hrun rfl rfl
  refine ⟨(u.drive .idle).release, ?_, ?_, fun a ha => ?_⟩
  · rw [bootInputs, runInputs_cons _ hassert, runInputs_append _ hloads, runInputs_cons _ hrelease]
    rfl
  · rw [State.drive_idle_release hu, hcfg]
    rfl
  · exact (hread a).trans (if_pos ⟨Nat.zero_le a, by omega⟩)

end Sys2Proof.Machine
end
